-- ==== Sys2Proof/Word.lean ====
section
/-! DEFINITION. Bytes, frames, binary64 patterns and the calibration set: the plain types every other file uses. -/

namespace Sys2Proof

/-- A byte; bit 7 is its most significant bit (00_scope.md section 6.1). -/
abbrev Byte := BitVec 8

/-- A request or response frame: a finite byte string, byte 0 first (R31, R32). -/
abbrev Frame := List Byte

/-- A binary64 bit pattern: 1 sign bit, 11 exponent bits, 52 fraction bits (00_scope.md section 6.3). -/
abbrev F64 := BitVec 64

/-- The calibration file `CAL[0..17]`, 18 registers of 16 bits under the names of R11:
`CAL[0..2]` = T1..T3, `CAL[3..11]` = P1..P9, `CAL[12..17]` = H1..H6 (R10). -/
structure Coeffs where
  t1 : BitVec 16
  t2 : BitVec 16
  t3 : BitVec 16
  p1 : BitVec 16
  p2 : BitVec 16
  p3 : BitVec 16
  p4 : BitVec 16
  p5 : BitVec 16
  p6 : BitVec 16
  p7 : BitVec 16
  p8 : BitVec 16
  p9 : BitVec 16
  h1 : BitVec 16
  h2 : BitVec 16
  h3 : BitVec 16
  h4 : BitVec 16
  h5 : BitVec 16
  h6 : BitVec 16
deriving DecidableEq, Repr

end Sys2Proof
end

