-- ==== Sys2Proof/Config.lean ====
section
/-! DEFINITION. What an implementation fixes and the spec leaves open: the parameters of R5 and the free values.
Every `opaque` below has no body, so no proof can use a value of it. -/

namespace Sys2Proof

/-- The four rounded binary64 operations (00_scope.md section 6.3). -/
inductive FOp where
  | add
  | sub
  | mul
  | div
deriving DecidableEq, Repr

/-- The eleven arguments of `PCore` (R95, property P-1 of R96): the signed value of `TFINE`, the 20-bit raw
pressure as a number, and the nine coefficient values with their signedness applied. -/
structure PressureArgs where
  tfine : Int
  rawP : Nat
  p1 : Int
  p2 : Int
  p3 : Int
  p4 : Int
  p5 : Int
  p6 : Int
  p7 : Int
  p8 : Int
  p9 : Int
deriving DecidableEq, Repr

/-- The eight arguments of `HCore` (R99, property H-1 of R100). -/
structure HumidityArgs where
  tfine : Int
  rawH : Nat
  h1 : Int
  h2 : Int
  h3 : Int
  h4 : Int
  h5 : Int
  h6 : Int
deriving DecidableEq, Repr

/-- The physical constants R122 and R124 name for the inside of `Rho` and `Slp`, as binary64 patterns (R117). -/
structure GasConstants where
  dry : F64
  vapour : F64
deriving DecidableEq, Repr

namespace Config

/-- `MAXBUF` (R5, D33): the longest CRC.VERIFY buffer; the spec's value is "none", no bound. -/
def maxBuf : Option Nat := none

/-- `ALT_RESET` (R5, R18, D18): OPEN; the contents of ALT after reset. -/
opaque altReset : F64

/-- `DEW_SENTINEL` (R5, R119, D26): OPEN; the payload of RD.DEW when the humidity is not above zero. -/
opaque dewSentinel : F64

/-- `Log10` (R5, R118, D25): OPEN; the base-10 logarithm of RD.DEW. -/
opaque log10 : F64 → F64

/-- `Exp` (R5, R120, D25): OPEN; the exponential of the saturation vapour pressure. -/
opaque exp : F64 → F64

/-- The "first-order denominator term" of the pressure polynomial (R96 P-2): OPEN. `pressureDenominator` of
Machine/Operands.lean gives it the one value property P-3 fixes. -/
opaque pDenominator : PressureArgs → F64

/-- The binary64 value `v` of `Value(v)` (R96 P-2): OPEN. -/
opaque pValue : PressureArgs → F64

/-- `HCore` (R5, R100, D24): OPEN; the six-coefficient humidity polynomial, in percent. -/
opaque hCore : HumidityArgs → F64

/-- The formula of `Rho` (R5, R122, D24): OPEN, in the gas constants, `SatVap(TEMP)`, TEMP, PRESS and HUM. -/
opaque rhoFormula : GasConstants → (satVap temp press hum : F64) → F64

/-- The formula of `Slp` (R5, R124, D24): OPEN, in the gas constants, `SatVap(TEMP)`, TEMP, PRESS, HUM and ALT. -/
opaque slpFormula : GasConstants → (satVap temp press hum alt : F64) → F64

/-- Which NaN an operation yields (R82, U4): free. It depends on the operation and its operands alone, so an RD
operation stays a function of the registers (R110); `quietNaN` of Machine/Binary64.lean makes it a quiet NaN. -/
opaque nanPattern : FOp → F64 → F64 → F64

/-- `floor_int` of an infinity or a NaN: 00_scope.md section 6.3 defines it for finite values only. Free. -/
opaque floorNonFinite : F64 → Int

/-- `CAL[i]` after the reset number `draw`: unspecified (R24). Free. -/
opaque resetCal : (draw : Nat) → (i : Nat) → BitVec 16

/-- `TEMP` after the reset number `draw`: unspecified (R24). Free. -/
opaque resetTemp : (draw : Nat) → F64

/-- `PRESS` after the reset number `draw`: unspecified (R24). Free. -/
opaque resetPress : (draw : Nat) → F64

/-- `HUM` after the reset number `draw`: unspecified (R24). Free. -/
opaque resetHum : (draw : Nat) → F64

/-- `RAW_T` after the reset number `draw`: unspecified (R24). Free. -/
opaque resetRawT : (draw : Nat) → BitVec 20

/-- `RAW_P` after the reset number `draw`: unspecified (R24). Free. -/
opaque resetRawP : (draw : Nat) → BitVec 20

/-- `RAW_H` after the reset number `draw`: unspecified (R24). Free. -/
opaque resetRawH : (draw : Nat) → BitVec 16

/-- `TFINE` after the reset number `draw`: unspecified (R24). Free. -/
opaque resetTfine : (draw : Nat) → BitVec 32

/-- `CRCREG` after the reset number `draw`: unspecified (R24). Free. -/
opaque resetCrcReg : (draw : Nat) → Byte

/-- `GIDX` after the reset number `draw`: unspecified (R24). Free. -/
opaque resetGidx : (draw : Nat) → Nat

/-- `OKF` after the reset number `draw`: unspecified (R24). Free. -/
opaque resetOkf : (draw : Nat) → Bool

end Config

end Sys2Proof
end

