-- ==== Sys2Proof/Syntax.lean ====
section
/-! DEFINITION. The operations of the unit, one constructor for each row of spec/opcode_table.json (R50). -/

namespace Sys2Proof

/-- An operation with its operands as the request frame carries them (R46, R47). -/
inductive Instr where
  /-- CRC.COMPUTE `b0, b1` (R63). -/
  | crcCompute (b0 b1 : Byte)
  /-- CRC.VERIFY `[buf]` (R65). -/
  | crcVerify (buf : List Byte)
  /-- CAL.LOAD `c0, …, c17` (R86). -/
  | calLoad (c : Coeffs)
  /-- ALT.SET `v` (R87). -/
  | altSet (v : F64)
  /-- CONVERT `p, t, h`: the three fields of the burst whole, the dropped low bits of `p` and `t` with them (R47, R89). -/
  | convert (p t : BitVec 24) (h : BitVec 16)
  /-- RD.T (R112). -/
  | rdT
  /-- RD.P (R113). -/
  | rdP
  /-- RD.PN (R114). -/
  | rdPn
  /-- RD.H (R115). -/
  | rdH
  /-- RD.VALID (R116). -/
  | rdValid
  /-- RD.DEW (R118). -/
  | rdDew
  /-- RD.RHO (R121). -/
  | rdRho
  /-- RD.SLP (R123). -/
  | rdSlp
deriving DecidableEq, Repr

end Sys2Proof
end

