-- ==== Sys2Proof/WellFormed.lean ====
section
/-! DEFINITION. Which operations have a request frame at all: the one check is `MAXBUF` (R53, R55). -/

namespace Sys2Proof

/-- Whether a buffer of `n` bytes may be sent, `maxBuf` being the parameter `MAXBUF` (R31, R53). -/
def bufferFits (maxBuf : Option Nat) (n : Nat) : Bool :=
  match maxBuf with
  | none => true
  | some m => decide (n ≤ m)

/-- The check for a given `MAXBUF`: every operand has the width its type gives it, so only the length of the
CRC.VERIFY buffer can be wrong. -/
def Instr.wellFormedFor (maxBuf : Option Nat) : Instr → Bool
  | .crcCompute _ _ => true
  | .crcVerify buf => bufferFits maxBuf buf.length
  | .calLoad _ => true
  | .altSet _ => true
  | .convert _ _ _ => true
  | .rdT => true
  | .rdP => true
  | .rdPn => true
  | .rdH => true
  | .rdValid => true
  | .rdDew => true
  | .rdRho => true
  | .rdSlp => true

/-- Well-formed for this unit. -/
def Instr.wellFormed (i : Instr) : Bool := i.wellFormedFor Config.maxBuf

end Sys2Proof
end

