-- ==== Sys2Proof/Decode.lean ====
section
/-! DEFINITION. Request frames: byte order, the opcode map, the decoder (total, rejecting by name) and the encoder. -/

namespace Sys2Proof

/-! ## Byte order (R33) -/

/-- `MemRead(addr, n)` of the payload: `n` bytes as one unsigned number, the byte at the lowest offset most
significant (R33, 00_scope.md section 6.2). -/
def memRead (payload : List Byte) (addr n : Nat) : Nat :=
  ((payload.drop addr).take n).foldl (fun acc b => 256 * acc + b.toNat) 0

/-- The `n` bytes of a number, most significant byte first (R33). -/
def beBytes : (n : Nat) → (v : Nat) → List Byte
  | 0, _ => []
  | n + 1, v => BitVec.ofNat 8 (v / 256 ^ n) :: beBytes n v

/-- `be64(v)`: the 8-byte string of a binary64 value, sign and exponent byte first. -/
def be64 (v : F64) : List Byte := beBytes 8 v.toNat

/-! ## The calibration file as an indexed file (R10) -/

/-- The calibration set whose coefficient `i` is `f i`, in the index order of R10. -/
def Coeffs.ofFn (f : Nat → BitVec 16) : Coeffs :=
  { t1 := f 0, t2 := f 1, t3 := f 2
    p1 := f 3, p2 := f 4, p3 := f 5, p4 := f 6, p5 := f 7, p6 := f 8, p7 := f 9, p8 := f 10, p9 := f 11
    h1 := f 12, h2 := f 13, h3 := f 14, h4 := f 15, h5 := f 16, h6 := f 17 }

/-- `CAL[0]`, …, `CAL[17]` in index order (R10). -/
def Coeffs.toList (c : Coeffs) : List (BitVec 16) :=
  [c.t1, c.t2, c.t3, c.p1, c.p2, c.p3, c.p4, c.p5, c.p6, c.p7, c.p8, c.p9, c.h1, c.h2, c.h3, c.h4, c.h5, c.h6]

/-! ## The opcode map (R46, R50) -/

/-- The six request formats of R46. -/
inductive FrameFormat where
  | Z
  | W
  | B
  | C
  | F
  | S
deriving DecidableEq, Repr

/-- The thirteen operations of R50, without operands. -/
inductive Op where
  | crcCompute
  | crcVerify
  | calLoad
  | altSet
  | convert
  | rdT
  | rdP
  | rdPn
  | rdH
  | rdValid
  | rdDew
  | rdRho
  | rdSlp
deriving DecidableEq, Repr

/-- One row of the opcode map. -/
structure OpRow where
  code : Byte
  op : Op
  format : FrameFormat
deriving DecidableEq, Repr

/-- The opcode map of R50: the match is on the whole first byte. -/
def opTable : List OpRow :=
  [ ⟨0x01, .crcCompute, .W⟩,
    ⟨0x02, .crcVerify, .B⟩,
    ⟨0x10, .calLoad, .C⟩,
    ⟨0x11, .altSet, .F⟩,
    ⟨0x20, .convert, .S⟩,
    ⟨0x30, .rdT, .Z⟩,
    ⟨0x31, .rdP, .Z⟩,
    ⟨0x32, .rdPn, .Z⟩,
    ⟨0x33, .rdH, .Z⟩,
    ⟨0x34, .rdValid, .Z⟩,
    ⟨0x38, .rdDew, .Z⟩,
    ⟨0x39, .rdRho, .Z⟩,
    ⟨0x3A, .rdSlp, .Z⟩ ]

/-- The row of an opcode byte; none for the 243 reserved values (R51). -/
def opRow (code : Byte) : Option OpRow := opTable.find? (fun r => r.code == code)

/-- The payload length of a format, in bytes, where it is fixed (R46). -/
def FrameFormat.payloadLength : FrameFormat → Option Nat
  | .Z => some 0
  | .W => some 2
  | .B => none
  | .C => some 36
  | .F => some 8
  | .S => some 8

/-- Whether a payload of `n` bytes fits the format (R53, R55). -/
def FrameFormat.fits (maxBuf : Option Nat) (format : FrameFormat) (n : Nat) : Bool :=
  match format.payloadLength with
  | some k => n == k
  | none => bufferFits maxBuf n

/-- Operand assembly (R47), for a payload whose length fits the operation's format. -/
def Op.assemble (payload : List Byte) : Op → Instr
  | .crcCompute => .crcCompute (payload.getD 0 0) (payload.getD 1 0)
  | .crcVerify => .crcVerify payload
  | .calLoad => .calLoad (Coeffs.ofFn fun i => BitVec.ofNat 16 (memRead payload (2 * i) 2))
  | .altSet => .altSet (BitVec.ofNat 64 (memRead payload 0 8))
  | .convert => .convert (BitVec.ofNat 24 (memRead payload 0 3)) (BitVec.ofNat 24 (memRead payload 3 3))
      (BitVec.ofNat 16 (memRead payload 6 2))
  | .rdT => .rdT
  | .rdP => .rdP
  | .rdPn => .rdPn
  | .rdH => .rdH
  | .rdValid => .rdValid
  | .rdDew => .rdDew
  | .rdRho => .rdRho
  | .rdSlp => .rdSlp

/-! ## The decoder (R49) -/

/-- Why a frame is no operation; the arguments are R49's `info`, which is not sent. -/
inductive DecodeError where
  /-- The empty frame (R52). -/
  | emptyFrame
  /-- A reserved first byte (R51). -/
  | reservedOpcode (op : Byte)
  /-- A legal first byte and a frame of the wrong length (R53). -/
  | badLength (op : Byte) (reqLen : Nat)
deriving DecidableEq, Repr

/-- What the decoder makes of a frame. -/
inductive Decoded where
  | instr (i : Instr)
  | reject (e : DecodeError)
deriving DecidableEq, Repr

/-- `decode(REQ)` of R49 for a given `MAXBUF`: empty frame, opcode, length, in that order. -/
def decodeFor (maxBuf : Option Nat) : Frame → Decoded
  | [] => .reject .emptyFrame
  | code :: payload =>
    match opRow code with
    | none => .reject (.reservedOpcode code)
    | some row =>
      if row.format.fits maxBuf payload.length then .instr (row.op.assemble payload)
      else .reject (.badLength code (payload.length + 1))

/-- The decoder of this unit. -/
def decode (req : Frame) : Decoded := decodeFor Config.maxBuf req

/-! ## The encoder (R46) -/

/-- The request frame of an operation, field by field from the tables of R46. -/
def encode : Instr → Frame
  | .crcCompute b0 b1 => [0x01, b0, b1]
  | .crcVerify buf => 0x02 :: buf
  | .calLoad c => 0x10 :: c.toList.flatMap (fun v => beBytes 2 v.toNat)
  | .altSet v => 0x11 :: be64 v
  | .convert p t h => 0x20 :: (beBytes 3 p.toNat ++ beBytes 3 t.toNat ++ beBytes 2 h.toNat)
  | .rdT => [0x30]
  | .rdP => [0x31]
  | .rdPn => [0x32]
  | .rdH => [0x33]
  | .rdValid => [0x34]
  | .rdDew => [0x38]
  | .rdRho => [0x39]
  | .rdSlp => [0x3A]

/-! ## Pseudo-operations (R57): notation, of which the unit sees only the expansion -/

/-- The three pseudo-operations of R57. -/
inductive PseudoOp where
  /-- CRC.CHECK `d0, d1, c`. -/
  | crcCheck (d0 d1 c : Byte)
  /-- CRC.FRAME `d0, d1`; the host makes the framed word of the answer. -/
  | crcFrame (d0 d1 : Byte)
  /-- CONVERT.RAW `raw_p, raw_t, raw_h`. -/
  | convertRaw (rawP rawT : BitVec 20) (rawH : BitVec 16)
deriving DecidableEq, Repr

/-- The operation a pseudo-operation stands for; CONVERT.RAW sends the dropped low bits as zero. -/
def PseudoOp.expand : PseudoOp → Instr
  | .crcCheck d0 d1 c => .crcVerify [d0, d1, c]
  | .crcFrame d0 d1 => .crcCompute d0 d1
  | .convertRaw rawP rawT rawH => .convert (rawP ++ 0#4) (rawT ++ 0#4) rawH

/-! ## Words numbered as spec/opcode_table.json numbers them -/

/-- The `n` bytes of a word whose bit 0 is the least significant bit of the first byte. -/
def bytesOfWord : (n : Nat) → (w : Nat) → List Byte
  | 0, _ => []
  | n + 1, w => BitVec.ofNat 8 w :: bytesOfWord n (w / 256)

/-- The frame length of an opcode byte where R50 fixes one; 1 (the opcode alone) otherwise. -/
def fixedFrameLength (code : Byte) : Nat :=
  match opRow code with
  | none => 1
  | some row => (row.format.payloadLength.getD 0) + 1

/-- The frame of a table word: its `nbits` bits in whole bytes, the first byte first, lengthened with zero bytes to
the frame length of its opcode. -/
def tableFrame (nbits w : Nat) : Frame :=
  bytesOfWord (max ((nbits + 7) / 8) (fixedFrameLength (BitVec.ofNat 8 w))) (w % 2 ^ nbits)

/-- The instruction the decoder reads from a table word; none where it refuses. -/
def decodeTableWord (nbits w : Nat) : Option Instr :=
  match decode (tableFrame nbits w) with
  | .instr i => some i
  | .reject _ => none

end Sys2Proof
end

