-- ==== Sys2Proof/Machine/State.lean ====
section
/-! DEFINITION. The state of the unit and of its port, the state after reset, and the reasons a step can stop. -/

namespace Sys2Proof.Machine

/-- The architectural registers and flags: the whole state of the unit between two operations (10_state.md section 1). -/
structure Arch where
  /-- `CAL[0..17]` (R10). -/
  cal : Coeffs
  /-- `CALVALID` (R12). -/
  calValid : Bool
  /-- `ALT` (R18). -/
  alt : F64
  /-- `TEMP`, in degrees Celsius (R19). -/
  temp : F64
  /-- `PRESS`, in native units (R19). -/
  press : F64
  /-- `HUM`, in percent (R19). -/
  hum : F64
  /-- `VALID` (R16). -/
  valid : Bool
deriving DecidableEq, Repr

/-- The working registers: written before they are read inside one operation (R13, R21, R22). -/
structure Work where
  /-- `RAW_T` (R13). -/
  rawT : BitVec 20
  /-- `RAW_P` (R13). -/
  rawP : BitVec 20
  /-- `RAW_H` (R13). -/
  rawH : BitVec 16
  /-- `TFINE`, signed (R21). -/
  tfine : BitVec 32
  /-- `CRCREG` (R22). -/
  crcReg : Byte
  /-- `GIDX` (R22). -/
  gidx : Nat
  /-- `OKF` (R22). -/
  okf : Bool
deriving DecidableEq, Repr

/-- What reaches the unit from outside: a request frame (R31), or the one external reset (R150). -/
inductive HostEvent where
  | request (req : Frame)
  | reset
deriving DecidableEq, Repr

/-- The unit and its port. `incoming`, `response` and `draw` are not registers of the unit. -/
structure State where
  arch : Arch
  work : Work
  /-- What the host still sends, in arrival order (R15, R40). -/
  incoming : List HostEvent
  /-- The response frame of the last operation; none when no operation has ended since reset (R32, R152). -/
  response : Option Frame
  /-- The model's own counter: how many resets have drawn unspecified register contents. -/
  draw : Nat
deriving DecidableEq, Repr

/-- The unit never stops: every operation ends in a response frame (R165) and every error is one (R130, R143).
So there is no fault, and no constructor. -/
inductive Fault where
deriving DecidableEq, Repr

/-- The reasons the model has no meaning for an instruction. -/
inductive Refusal where
  /-- Raised by `exec`'s arm of an instruction that has no meaning yet. Safe: the model stops where the hardware
  goes on. No arm raises it. -/
  | notModelled (mnemonic : String)
deriving DecidableEq, Repr

/-- The status bytes of R131. -/
inductive Status where
  /-- `ST_OK`. -/
  | ok
  /-- `ST_UNAVAIL`. -/
  | unavail
  /-- `ST_UNDEF`. -/
  | undef
  /-- `ErrIllegal`. -/
  | errIllegal
  /-- `ErrFormat`. -/
  | errFormat
  /-- `ErrNoCal`. -/
  | errNoCal
  /-- `ErrState`. -/
  | errState
deriving DecidableEq, Repr

/-- The errors `raise` takes (R131, R142). -/
inductive Err where
  | illegal
  | format
  | noCal
  | state
deriving DecidableEq, Repr

/-- The architectural state after the reset number `draw` (R24, R150): both flags 0, ALT at `ALT_RESET`, the rest
unspecified. -/
def Arch.atReset (draw : Nat) : Arch :=
  { cal :=
      { t1 := Config.resetCal draw 0, t2 := Config.resetCal draw 1, t3 := Config.resetCal draw 2
        p1 := Config.resetCal draw 3, p2 := Config.resetCal draw 4, p3 := Config.resetCal draw 5
        p4 := Config.resetCal draw 6, p5 := Config.resetCal draw 7, p6 := Config.resetCal draw 8
        p7 := Config.resetCal draw 9, p8 := Config.resetCal draw 10, p9 := Config.resetCal draw 11
        h1 := Config.resetCal draw 12, h2 := Config.resetCal draw 13, h3 := Config.resetCal draw 14
        h4 := Config.resetCal draw 15, h5 := Config.resetCal draw 16, h6 := Config.resetCal draw 17 }
    calValid := false
    alt := Config.altReset
    temp := Config.resetTemp draw
    press := Config.resetPress draw
    hum := Config.resetHum draw
    valid := false }

/-- The working registers after the reset number `draw`: unspecified (R24). -/
def Work.atReset (draw : Nat) : Work :=
  { rawT := Config.resetRawT draw
    rawP := Config.resetRawP draw
    rawH := Config.resetRawH draw
    tfine := Config.resetTfine draw
    crcReg := Config.resetCrcReg draw
    gidx := Config.resetGidx draw
    okf := Config.resetOkf draw }

/-- The state after the reset number `draw`, the host going on to send `incoming`: idle, no response (R151, R152). -/
def State.atReset (draw : Nat) (incoming : List HostEvent) : State :=
  { arch := Arch.atReset draw
    work := Work.atReset draw
    incoming := incoming
    response := none
    draw := draw + 1 }

/-- The machine right after its first reset, with nothing sent yet. -/
def State.reset : State := State.atReset 0 []

end Sys2Proof.Machine
end

