-- ==== Sys2Proof/Machine/Flags.lean ====
section
/-! DEFINITION. The two flags, VALID and CALVALID, and the byte a truth value is sent as (R12, R16, R17). The unit
has no condition codes and no floating-point flags, so no operation computes any other flag. -/

namespace Sys2Proof.Machine

/-- A truth value in a response: 0x01 for true, 0x00 for false (R48, D11). -/
def boolByte (b : Bool) : Byte := if b then 0x01 else 0x00

/-- Whether CONVERT may run and CAL.LOAD may not (R12, R134, R135). -/
def State.calibrated (s : State) : Bool := s.arch.calValid

/-- Whether a reading is stored (R16, R111). -/
def State.hasReading (s : State) : Bool := s.arch.valid

end Sys2Proof.Machine
end

