-- ==== Sys2Proof/Machine/Binary64.lean ====
section
/-! DEFINITION. binary64 arithmetic (R82, 00_scope.md section 6.3). A finite value is a whole number of units of
2^-1074, the least subnormal; each operation computes exactly on such numbers and rounds once. The operations are
irreducible, so that no proof unfolds one by accident; `rw` and `unfold` open them by name. -/

namespace Sys2Proof.Machine

/-! ## Fields and values -/

/-- The exponent field, bits 62:52. The all-zero pattern stands apart so that evaluation on a pattern that is not
known stops at once; `expField_bits` of Laws/Binary64.lean says that it is bits 62:52 of every pattern. -/
def expField (v : F64) : Nat :=
  match v.toNat with
  | 0 => 0
  | n + 1 => (n + 1) / 2 ^ 52 % 2 ^ 11

/-- The fraction field, bits 51:0. -/
def fracField (v : F64) : Nat := v.toNat % 2 ^ 52

/-- The sign bit, bit 63; true for a negative value and for -0.0. -/
def signBit (v : F64) : Bool := v.getLsbD 63

def isNaN (v : F64) : Bool := expField v == 2047 && fracField v != 0

def isInf (v : F64) : Bool := expField v == 2047 && fracField v == 0

def isFinite (v : F64) : Bool := expField v != 2047

/-- The magnitude of a finite value in units of 2^-1074. An infinity's fields give 2^1024 in the same units, more
than every finite magnitude, so comparisons need no case for it. -/
def magUnits (v : F64) : Nat :=
  if expField v = 0 then fracField v else (2 ^ 52 + fracField v) * 2 ^ (expField v - 1)

/-- The value with its sign, in units of 2^-1074; both zeros give 0. -/
def unitsOf (v : F64) : Int := if signBit v then -(magUnits v : Int) else (magUnits v : Int)

/-- How many units the value 1.0 is. -/
def oneUnits : Nat := 2 ^ 1074

/-! ## Rounding -/

/-- The whole number nearest to `n / d`, the even one at a tie. -/
def roundEven (n d : Nat) : Nat :=
  let q := n / d
  let r := n % d
  if 2 * r < d then q else if d < 2 * r then q + 1 else q + q % 2

/-- The exponent field and fraction of +infinity, as one number. -/
def infMagnitude : Nat := 2047 * 2 ^ 52

/-- Bits 62:0 of the binary64 value nearest to `n / d` units, ties to even. `shift` is how many low bits of the
exact value the 53-bit significand leaves out; adding the rounded significand to the exponent field carries into
the exponent as the format does. At and above 2^1024 - 2^970 the result is an infinity. -/
def roundMagnitude (n d : Nat) : Nat :=
  let shift := Nat.log2 (n / d) - 52
  min (shift * 2 ^ 52 + roundEven n (d * 2 ^ shift)) infMagnitude

/-- A pattern from its sign and its bits 62:0. -/
def packSign (neg : Bool) (magnitude : Nat) : F64 :=
  BitVec.ofNat 64 ((if neg then 2 ^ 63 else 0) + magnitude)

/-- The exact value `n / d` units with a sign, rounded once to nearest, ties to even (R82). -/
def roundF64 (neg : Bool) (n d : Nat) : F64 := packSign neg (roundMagnitude n d)

/-! ## NaN -/

/-- A pattern made a quiet NaN: exponent field all ones and bit 51 set; sign and the rest are the pattern's. -/
def quietNaN (pattern : F64) : F64 := pattern ||| 0x7FF8000000000000

/-- The quiet NaN an operation gives: which one is free (R82, U4). -/
def freeNaN (op : FOp) (a b : F64) : F64 := quietNaN (Config.nanPattern op a b)

/-! ## The rounded operations -/

/-- `fadd(a, b)`. An exact sum of zero is +0.0 unless both operands are negative. -/
@[irreducible] def fadd (a b : F64) : F64 :=
  if isNaN a || isNaN b then freeNaN .add a b
  else if isInf a && isInf b && signBit a != signBit b then freeNaN .add a b
  else if isInf a then a
  else if isInf b then b
  else
    let s := unitsOf a + unitsOf b
    if s = 0 then packSign (signBit a && signBit b) 0
    else roundF64 (decide (s < 0)) s.natAbs 1

/-- The value with its sign bit inverted. -/
def fneg (v : F64) : F64 := v ^^^ 0x8000000000000000

/-- `fsub(a, b)`: the sum of `a` and `b` with its sign inverted, but for the NaN it may give. -/
@[irreducible] def fsub (a b : F64) : F64 :=
  if isNaN a || isNaN b then freeNaN .sub a b
  else if isInf a && isInf b && signBit a == signBit b then freeNaN .sub a b
  else fadd a (fneg b)

/-- Whether a product or quotient is negative. -/
def signsDiffer (a b : F64) : Bool := signBit a != signBit b

/-- `fmul(a, b)`; an infinity times a zero is invalid. -/
@[irreducible] def fmul (a b : F64) : F64 :=
  if isNaN a || isNaN b then freeNaN .mul a b
  else if (isInf a && magUnits b == 0) || (isInf b && magUnits a == 0) then freeNaN .mul a b
  else if isInf a || isInf b then packSign (signsDiffer a b) infMagnitude
  else roundF64 (signsDiffer a b) (magUnits a * magUnits b) oneUnits

/-- `fdiv(a, b)`; 0/0 and infinity/infinity are invalid; a non-zero finite number divided by zero is an infinity. -/
@[irreducible] def fdiv (a b : F64) : F64 :=
  if isNaN a || isNaN b then freeNaN .div a b
  else if (isInf a && isInf b) || (magUnits a == 0 && magUnits b == 0) then freeNaN .div a b
  else if isInf a || magUnits b == 0 then packSign (signsDiffer a b) infMagnitude
  else if isInf b then packSign (signsDiffer a b) 0
  else roundF64 (signsDiffer a b) (magUnits a * oneUnits) (magUnits b)

/-- `i2f(n)`: exact for every integer the spec converts (R83). -/
@[irreducible] def i2f (n : Int) : F64 :=
  match n with
  | .ofNat 0 => packSign false 0
  | .ofNat (k + 1) => roundF64 false ((k + 1) * oneUnits) 1
  | .negSucc k => roundF64 true ((k + 1) * oneUnits) 1

/-! ## Comparisons: every comparison with a NaN is false -/

/-- `flt(a, b)`. -/
@[irreducible] def flt (a b : F64) : Bool := !isNaN a && !isNaN b && decide (unitsOf a < unitsOf b)

/-- `fgt(a, b)`. -/
@[irreducible] def fgt (a b : F64) : Bool := !isNaN a && !isNaN b && decide (unitsOf b < unitsOf a)

/-- `feq(a, b)`; `feq(+0, -0)` is true. -/
@[irreducible] def feq (a b : F64) : Bool := !isNaN a && !isNaN b && decide (unitsOf a = unitsOf b)

/-- `fle(a, b)`. -/
@[irreducible] def fle (a b : F64) : Bool := !isNaN a && !isNaN b && decide (unitsOf a ≤ unitsOf b)

/-- `floor_int(v)`: the largest integer not above a finite `v` (R92); free for the rest, where no rule defines it. -/
@[irreducible] def floorInt (v : F64) : Int :=
  if isFinite v then unitsOf v / (oneUnits : Int) else Config.floorNonFinite v

/-- `clamp(v, lo, hi)` (R84). -/
@[irreducible] def clamp (v lo hi : F64) : F64 :=
  if flt v lo then lo else if fgt v hi then hi else v

end Sys2Proof.Machine
end

