-- ==== Sys2Proof/Machine/Operands.lean ====
section
/-! DEFINITION. How operands are read: the raw fields of a burst, the coefficient values with their signedness, and
the arguments of the configuration functions. -/

namespace Sys2Proof.Machine

/-! ## The raw sample (R47, R88) -/

/-- The top 20 bits of a 24-bit field: the low 4 bits are dropped (R54). -/
def top20 (field : BitVec 24) : BitVec 20 := field.extractLsb' 4 20

/-! ## Coefficient values (R11) -/

/-- The value of an unsigned coefficient. -/
def u16 (c : BitVec 16) : Int := (c.toNat : Int)

/-- The value of a signed coefficient. -/
def s16 (c : BitVec 16) : Int := c.toInt

/-- `CAL[i]` (R10); none outside 0..17, where there is no register. -/
def calReg (c : Coeffs) (i : Nat) : Option (BitVec 16) := c.toList[i]?

/-- The arguments of `PCore` (R95): P1 unsigned, P2 to P9 signed. -/
def pressureArgs (tfine : BitVec 32) (rawP : BitVec 20) (c : Coeffs) : PressureArgs :=
  { tfine := tfine.toInt
    rawP := rawP.toNat
    p1 := u16 c.p1
    p2 := s16 c.p2
    p3 := s16 c.p3
    p4 := s16 c.p4
    p5 := s16 c.p5
    p6 := s16 c.p6
    p7 := s16 c.p7
    p8 := s16 c.p8
    p9 := s16 c.p9 }

/-- The arguments of `HCore` (R99): H1 and H3 unsigned, H2, H4, H5 and H6 signed. -/
def humidityArgs (tfine : BitVec 32) (rawH : BitVec 16) (c : Coeffs) : HumidityArgs :=
  { tfine := tfine.toInt
    rawH := rawH.toNat
    h1 := u16 c.h1
    h2 := s16 c.h2
    h3 := u16 c.h3
    h4 := s16 c.h4
    h5 := s16 c.h5
    h6 := s16 c.h6 }

/-! ## The configuration functions as the rules call them -/

/-- What `PCore` returns (R5, R95). -/
inductive PResult where
  | zero
  | value (v : F64)
deriving DecidableEq, Repr

/-- The first-order denominator term: free, but a zero when `P1 = 0` (R96 P-3). -/
def pressureDenominator (a : PressureArgs) : F64 :=
  if a.p1 = 0 then 0x0000000000000000 else Config.pDenominator a

/-- `PCore`: `Zero` exactly when the first-order denominator term is exactly zero (R96 P-2). -/
def pCore (a : PressureArgs) : PResult :=
  if feq (pressureDenominator a) 0x0000000000000000 then .zero else .value (Config.pValue a)

/-- The constants 287.058 and 461.523 J/(kg·K) as the binary64 patterns R117 gives. -/
def gasConstants : GasConstants := { dry := 0x4071F0ED916872B0, vapour := 0x407CD85E353F7CEE }

/-- `17.62·T/(243.12+T)`, nested as R118 and R120 write it. -/
def magnusRatio (t : F64) : F64 :=
  fdiv (fmul 0x40319EB851EB851F t) (fadd 0x406E63D70A3D70A4 t)

/-- `SatVap(T)` (R120). -/
def satVap (t : F64) : F64 := fmul 0x401872B020C49BA6 (Config.exp (magnusRatio t))

/-- `Rho(TEMP, PRESS, HUM)` (R122). -/
def rho (t p h : F64) : F64 := Config.rhoFormula gasConstants (satVap t) t p h

/-- `Slp(TEMP, PRESS, HUM, ALT)` (R124). -/
def slp (t p h alt : F64) : F64 := Config.slpFormula gasConstants (satVap t) t p h alt

end Sys2Proof.Machine
end

