-- ==== Sys2Proof/Machine/Ops.lean ====
section
/-! DEFINITION. The operations every meaning is built from: answering, raising an error, resetting, and writing the
registers. -/

namespace Sys2Proof.Machine

/-! ## Answering and raising (R130, R131) -/

/-- The status byte (R131). -/
def Status.code : Status → Byte
  | .ok => 0x00
  | .unavail => 0x01
  | .undef => 0x02
  | .errIllegal => 0x80
  | .errFormat => 0x81
  | .errNoCal => 0x82
  | .errState => 0x83

/-- The status an error is reported by (R131). -/
def Err.status : Err → Status
  | .illegal => .errIllegal
  | .format => .errFormat
  | .noCal => .errNoCal
  | .state => .errState

/-- `respond(st, bytes)`: the operation ends with the response frame `[st] ++ bytes` (R32). -/
def State.respond (s : State) (st : Status) (bytes : List Byte) : State :=
  { s with response := some (st.code :: bytes) }

/-- `raise E`, the unit's whole form of an exception: the response is the one status byte; no register changes,
nothing is saved, and control goes nowhere (R130, R136, R142, R143). There is no return from it: the unit takes the
next request as after a success (R143). -/
def State.raise (s : State) (e : Err) : State := s.respond e.status []

/-- The error a rejected frame raises (R49, R132, R133). -/
def decodeErr : DecodeError → Err
  | .emptyFrame => .format
  | .reservedOpcode _ => .illegal
  | .badLength _ _ => .format

/-- The answer to a frame the decoder rejects. -/
def State.rejectFrame (s : State) (e : DecodeError) : State := s.raise (decodeErr e)

/-- The first event has been taken from the port; `rest` is what the host still sends. -/
def State.take (s : State) (rest : List HostEvent) : State := { s with incoming := rest }

/-- The external reset (R150, R152): nothing persists but what the host goes on to send; no response frame. -/
def State.externalReset (s : State) (rest : List HostEvent) : State := State.atReset s.draw rest

/-! ## Writing registers (R14) -/

/-- `CAL[i] <- c[i]` for every `i`, and `CALVALID <- 1` (R86). -/
def State.loadCal (s : State) (c : Coeffs) : State :=
  { s with arch := { s.arch with cal := c, calValid := true } }

/-- `ALT <- v` (R87). -/
def State.setAlt (s : State) (v : F64) : State := { s with arch := { s.arch with alt := v } }

/-- `RAW_P`, `RAW_T` and `RAW_H` from the fields of the burst (R88). -/
def State.unpackRaw (s : State) (p t : BitVec 24) (h : BitVec 16) : State :=
  { s with work := { s.work with rawP := top20 p, rawT := top20 t, rawH := h } }

/-- `TFINE <- n`, in the 32-bit register (R21, R92). -/
def State.setTfine (s : State) (n : Int) : State :=
  { s with work := { s.work with tfine := BitVec.ofInt 32 n } }

/-- `TEMP`, `PRESS`, `HUM` and `VALID <- 1`, together (R104). -/
def State.storeReading (s : State) (tc pc hc : F64) : State :=
  { s with arch := { s.arch with temp := tc, press := pc, hum := hc, valid := true } }

/-- The working registers of the CRC block. -/
def State.setWork (s : State) (w : Work) : State := { s with work := w }

/-! ## Reading out (R111) -/

/-- `ST_UNAVAIL` while no reading is stored; otherwise the answer made of the stored reading. -/
def State.withReading (s : State) (answer : Arch → Status × List Byte) :
    Host.Outcome State Fault Refusal :=
  if s.hasReading then .next (s.respond (answer s.arch).1 (answer s.arch).2)
  else .next (s.respond .unavail [])

/-- An RD operation with a binary64 result (R48, R111). -/
def State.readOut (s : State) (quantity : Arch → F64) : Host.Outcome State Fault Refusal :=
  s.withReading fun a => (.ok, be64 (quantity a))

end Sys2Proof.Machine
end

