-- ==== Sys2Proof/Machine/Convert.lean ====
section
/-! DEFINITION. CONVERT: the three stages and the write-back (41_compensation.md section 5). Every nesting of
binary64 operations is the one the rules write out (R81). -/

namespace Sys2Proof.Machine

/-! ## Temperature stage (R90 to R92) -/

/-- `a` of R90: `raw_t/16384 - T1/1024`. -/
def tempA (rawT : BitVec 20) (t1 : Int) : F64 :=
  fsub (fdiv (i2f rawT.toNat) 0x40D0000000000000) (fdiv (i2f t1) 0x4090000000000000)

/-- `b` of R90: `raw_t/131072 - T1/8192`. -/
def tempB (rawT : BitVec 20) (t1 : Int) : F64 :=
  fsub (fdiv (i2f rawT.toNat) 0x4100000000000000) (fdiv (i2f t1) 0x40C0000000000000)

/-- `var1` of R90. -/
def tempVar1 (rawT : BitVec 20) (t1 t2 : Int) : F64 := fmul (tempA rawT t1) (i2f t2)

/-- `var2` of R90: the square before the product with T3. -/
def tempVar2 (rawT : BitVec 20) (t1 t3 : Int) : F64 :=
  fmul (fmul (tempB rawT t1) (tempB rawT t1)) (i2f t3)

/-- `s` of R90: the sum `var1 + var2`. -/
def tempSum (rawT : BitVec 20) (t1 t2 t3 : Int) : F64 :=
  fadd (tempVar1 rawT t1 t2) (tempVar2 rawT t1 t3)

/-- `s` from the calibration registers: T1 unsigned, T2 and T3 signed (R11). -/
def tempSumOf (rawT : BitVec 20) (c : Coeffs) : F64 := tempSum rawT (u16 c.t1) (s16 c.t2) (s16 c.t3)

/-- The temperature written to TEMP: `s / 5120`, clamped to [-40, 85] (R90, R91). -/
def clampedTemp (sum : F64) : F64 :=
  clamp (fdiv sum 0x40B4000000000000) 0xC044000000000000 0x4055400000000000

/-! ## Pressure stage (R95 to R98) -/

/-- The pressure written to PRESS, in native units: the sentinel 30000.0 when `PCore` is `Zero` (R97), otherwise
the value clamped to [30000, 110000] (R98). -/
def pressureStage (a : PressureArgs) : F64 :=
  match pCore a with
  | .zero => 0x40DD4C0000000000
  | .value v => clamp v 0x40DD4C0000000000 0x40FADB0000000000

/-! ## Humidity stage (R99 to R101) -/

/-- The humidity written to HUM, clamped to [0, 100]. -/
def humidityStage (a : HumidityArgs) : F64 :=
  clamp (Config.hCore a) 0x0000000000000000 0x4059000000000000

/-! ## The operation -/

/-- The state after the stages and the write-back of a CONVERT (R89, R102, R104). -/
def State.converted (s : State) (p t : BitVec 24) (h : BitVec 16) : State :=
  let s1 := s.unpackRaw p t h
  let sum := tempSumOf s1.work.rawT s1.arch.cal
  let s2 := s1.setTfine (floorInt sum)
  s2.storeReading (clampedTemp sum)
    (pressureStage (pressureArgs s2.work.tfine s2.work.rawP s2.arch.cal))
    (humidityStage (humidityArgs s2.work.tfine s2.work.rawH s2.arch.cal))

/-- CONVERT (R89): `ErrNoCal` without a calibration (R134); no sample makes it fail (R105). -/
def execConvert (p t : BitVec 24) (h : BitVec 16) (s : State) : Host.Outcome State Fault Refusal :=
  if s.calibrated then .next ((s.converted p t h).respond .ok [])
  else .next (s.raise .noCal)

end Sys2Proof.Machine
end

