-- ==== Sys2Proof/Machine/Crc.lean ====
section
/-! DEFINITION. The CRC block: CRC.COMPUTE and CRC.VERIFY (40_crc.md). -/

namespace Sys2Proof.Machine

/-- `crc_shift(c)`: one step of division by x^8 + x^5 + x^4 + 1 (R60, R61). -/
def crcShift (c : Byte) : Byte := if c.getLsbD 7 then (c <<< 1) ^^^ 0x31 else c <<< 1

/-- `crc_shift` repeated. -/
def crcShifts : Nat → Byte → Byte
  | 0, c => c
  | n + 1, c => crcShifts n (crcShift c)

/-- `crc_byte(c, b)` (R62). -/
def crcByte (c b : Byte) : Byte := crcShifts 8 (c ^^^ b)

/-- `crc8(b0, b1)`, the document's `compute`: initial value 0xFF, first byte first, no final XOR (R62). -/
def crc8 (b0 b1 : Byte) : Byte := crcByte (crcByte 0xFF b0) b1

/-- `group_ok(d0, d1, c)` (R64). -/
def groupOk (d0 d1 c : Byte) : Bool := c == crc8 d0 d1

/-- What checking one group leaves in CRCREG, OKF and GIDX (R65). -/
def checkGroup (d0 d1 c : Byte) (w : Work) : Work :=
  { w with crcReg := crc8 d0 d1, okf := w.okf && groupOk d0 d1 c, gidx := w.gidx + 1 }

/-- The loop of CRC.VERIFY over the groups of a buffer, in order (R65). -/
def checkGroups : List Byte → Work → Work
  | d0 :: d1 :: c :: rest, w => checkGroups rest (checkGroup d0 d1 c w)
  | _, w => w

/-- CRC.COMPUTE (R63). -/
def execCrcCompute (b0 b1 : Byte) (s : State) : Host.Outcome State Fault Refusal :=
  .next ((s.setWork { s.work with crcReg := crc8 b0 b1 }).respond .ok [crc8 b0 b1])

/-- CRC.VERIFY (R65): false at once for a length that is not a multiple of 3 (R66), otherwise the conjunction over
all groups (R68), true for none (R67). -/
def execCrcVerify (buf : List Byte) (s : State) : Host.Outcome State Fault Refusal :=
  if buf.length % 3 ≠ 0 then .next (s.respond .ok [boolByte false])
  else
    let w := checkGroups buf { s.work with okf := true, gidx := 0 }
    .next ((s.setWork w).respond .ok [boolByte w.okf])

end Sys2Proof.Machine
end

