-- ==== Sys2Proof/Machine/Derived.lean ====
section
/-! DEFINITION. The derived quantities, computed on demand from the stored reading and kept nowhere: RD.DEW, RD.RHO,
RD.SLP (42_readout_derived.md section 4). -/

namespace Sys2Proof.Machine

/-- `h` of R118: `(Log10(H) - 2)/0.4343 + 17.62·T/(243.12+T)`. -/
def dewH (t h : F64) : F64 :=
  fadd (fdiv (fsub (Config.log10 h) 0x4000000000000000) 0x3FDBCB923A29C77A) (magnusRatio t)

/-- The dew point of R118: `243.12·h/(17.62-h)`; not clamped (R125). -/
def dewPoint (t h : F64) : F64 :=
  fdiv (fmul 0x406E63D70A3D70A4 (dewH t h)) (fsub 0x40319EB851EB851F (dewH t h))

/-- What RD.DEW answers with a reading stored: the sentinel under `ST_UNDEF` when the humidity is not above zero
(R119), otherwise the dew point. -/
def dewAnswer (a : Arch) : Status × List Byte :=
  if fle a.hum 0x0000000000000000 then (.undef, be64 Config.dewSentinel)
  else (.ok, be64 (dewPoint a.temp a.hum))

/-- RD.DEW (R118). -/
def execRdDew (s : State) : Host.Outcome State Fault Refusal := s.withReading dewAnswer

/-- RD.RHO (R121). -/
def execRdRho (s : State) : Host.Outcome State Fault Refusal :=
  s.readOut fun a => rho a.temp a.press a.hum

/-- RD.SLP (R123): ALT as it stands when the operation runs (R162). -/
def execRdSlp (s : State) : Host.Outcome State Fault Refusal :=
  s.readOut fun a => slp a.temp a.press a.hum a.alt

end Sys2Proof.Machine
end

