-- ==== Sys2Proof/Machine/Readout.lean ====
section
/-! DEFINITION. Reading the primary quantities and the flag: RD.T, RD.P, RD.PN, RD.H, RD.VALID
(42_readout_derived.md section 3). -/

namespace Sys2Proof.Machine

/-- The pressure in hPa: one division of the native value by 100.0 (R113). -/
def pressureHPa (press : F64) : F64 := fdiv press 0x4059000000000000

/-- RD.T (R112). -/
def execRdT (s : State) : Host.Outcome State Fault Refusal := s.readOut fun a => a.temp

/-- RD.P (R113). -/
def execRdP (s : State) : Host.Outcome State Fault Refusal := s.readOut fun a => pressureHPa a.press

/-- RD.PN (R114). -/
def execRdPn (s : State) : Host.Outcome State Fault Refusal := s.readOut fun a => a.press

/-- RD.H (R115). -/
def execRdH (s : State) : Host.Outcome State Fault Refusal := s.readOut fun a => a.hum

/-- RD.VALID (R116): it answers whether or not a reading is stored. -/
def execRdValid (s : State) : Host.Outcome State Fault Refusal :=
  .next (s.respond .ok [boolByte s.hasReading])

end Sys2Proof.Machine
end

