-- ==== Sys2Proof/Machine/Store.lean ====
section
/-! DEFINITION. The stores of the COMP block: CAL.LOAD and ALT.SET (41_compensation.md sections 3 and 4). -/

namespace Sys2Proof.Machine

/-- CAL.LOAD (R86): once after each reset, `ErrState` after that (R135). -/
def execCalLoad (c : Coeffs) (s : State) : Host.Outcome State Fault Refusal :=
  if s.calibrated then .next (s.raise .state)
  else .next ((s.loadCal c).respond .ok [])

/-- ALT.SET (R87): any pattern, stored unchanged, in every state. -/
def execAltSet (v : F64) (s : State) : Host.Outcome State Fault Refusal :=
  .next ((s.setAlt v).respond .ok [])

end Sys2Proof.Machine
end

