-- ==== Sys2Proof/Machine/Dispatch.lean ====
section
/-! DEFINITION. From an operation to its meaning, one arm for each constructor of Instr. -/

namespace Sys2Proof.Machine

def exec (i : Instr) (s : State) : Host.Outcome State Fault Refusal :=
  match i with
  | .crcCompute b0 b1 => Sys2Proof.Machine.execCrcCompute b0 b1 s
  | .crcVerify buf => Sys2Proof.Machine.execCrcVerify buf s
  | .calLoad c => Sys2Proof.Machine.execCalLoad c s
  | .altSet v => Sys2Proof.Machine.execAltSet v s
  | .convert p t h => Sys2Proof.Machine.execConvert p t h s
  | .rdT => Sys2Proof.Machine.execRdT s
  | .rdP => Sys2Proof.Machine.execRdP s
  | .rdPn => Sys2Proof.Machine.execRdPn s
  | .rdH => Sys2Proof.Machine.execRdH s
  | .rdValid => Sys2Proof.Machine.execRdValid s
  | .rdDew => Sys2Proof.Machine.execRdDew s
  | .rdRho => Sys2Proof.Machine.execRdRho s
  | .rdSlp => Sys2Proof.Machine.execRdSlp s

end Sys2Proof.Machine
end

