-- ==== Sys2Proof/Machine/Step.lean ====
section
/-! DEFINITION. One step of the unit: it takes what the host sends next (R40), and is idle when nothing comes (R15). -/

namespace Sys2Proof.Machine

/-- A request frame is decoded (R49) and executed, or rejected with its error; a reset puts the unit to its reset
state (R150); with nothing sent the unit waits (R151). -/
def step (s : State) : Host.Outcome State Fault Refusal :=
  match s.incoming with
  | [] => .next s
  | .reset :: rest => .next (s.externalReset rest)
  | .request req :: rest =>
    match decode req with
    | .instr i => exec i (s.take rest)
    | .reject e => .next ((s.take rest).rejectFrame e)

/-- `s` with the frame of a table word as the next thing the host sends. -/
def State.withFetchWord (s : State) (nbits w : Nat) : State :=
  { s with incoming := .request (tableFrame nbits w) :: s.incoming }

end Sys2Proof.Machine
end

