-- ==== Sys2Proof/Safety.lean ====
section
/-! DEFINITION. What counts as a safe state of the unit, in the terms the claims use. -/

namespace Sys2Proof

open Machine

/-- The overflow threshold of round-to-nearest, 2^1024 - 2^970, in units of 2^-1074: the middle between the greatest
finite value and the next one the format would have. -/
def overflowUnits : Nat := 2 ^ 2098 - 2 ^ 2044

/-- A quiet NaN: what an invalid operation gives (R82). -/
def isQuietNaN (v : F64) : Bool := isNaN v && v.getLsbD 51

/-- A finite binary64 value within `[lo, hi]`. -/
def inRange (lo hi v : F64) : Bool := isFinite v && fle lo v && fle v hi

/-- TEMP is a number in [-40, 85] (R94). -/
def tempOk (v : F64) : Bool := inRange 0xC044000000000000 0x4055400000000000 v

/-- PRESS is in [30000, 110000] native units unless it is a NaN (R98, R103). -/
def pressOk (v : F64) : Bool := isNaN v || inRange 0x40DD4C0000000000 0x40FADB0000000000 v

/-- HUM is in [0, 100] unless it is a NaN (R101, R103). -/
def humOk (v : F64) : Bool := isNaN v || inRange 0x0000000000000000 0x4059000000000000 v

/-- The response shapes of R48 with the status codes of R131: a status alone, a byte result, a binary64 result. -/
def legalResponse (r : Frame) : Prop :=
  (∃ st ∈ ([0x00, 0x01, 0x80, 0x81, 0x82, 0x83] : List Byte), r = [st]) ∨
  (∃ b : Byte, r = [0x00, b]) ∨
  (∃ v : F64, r = 0x00 :: be64 v) ∨
  (∃ v : F64, r = 0x02 :: be64 v)

/-- The invariant of the unit: a reading is stored only when a calibration is loaded, a stored reading keeps its
clamped ranges (R85, R94, R98, R101), and only legal responses stand on the port (R48, R131). -/
structure StateInv (s : State) : Prop where
  reading_calibrated : s.arch.valid = true → s.arch.calValid = true
  temp_ok : s.arch.valid = true → tempOk s.arch.temp = true
  press_ok : s.arch.valid = true → pressOk s.arch.press = true
  hum_ok : s.arch.valid = true → humOk s.arch.hum = true
  response_ok : ∀ r, s.response = some r → legalResponse r

/-- Two states that differ at most in the working registers and in the response of an earlier operation. -/
structure AgreeButWork (s t : State) : Prop where
  arch : s.arch = t.arch
  incoming : s.incoming = t.incoming
  draw : s.draw = t.draw

/-- The 243 reserved opcode values, as the ranges of R51. -/
def reservedOpcode (code : Byte) : Bool :=
  let n := code.toNat
  n == 0x00 || (0x03 ≤ n && n ≤ 0x0F) || (0x12 ≤ n && n ≤ 0x1F) || (0x21 ≤ n && n ≤ 0x2F) ||
  (0x35 ≤ n && n ≤ 0x37) || 0x3B ≤ n

/-- Whether `reqLen` is a frame length R133 gives for a legal opcode. -/
def lengthFits (maxBuf : Option Nat) (code : Byte) (reqLen : Nat) : Prop :=
  if code = 0x01 then reqLen = 3
  else if code = 0x10 then reqLen = 37
  else if code = 0x11 ∨ code = 0x20 then reqLen = 9
  else if code = 0x02 then 1 ≤ reqLen ∧ ∀ m, maxBuf = some m → reqLen ≤ 1 + m
  else reqLen = 1

/-- The number of one-bits of a pattern. -/
def weight {n : Nat} (v : BitVec n) : Nat := ((List.range n).filter fun i => v.getLsbD i).length

end Sys2Proof
end

