-- ==== Sys2Proof/Certificates/Slice0/Obligations.lean ====
section
/-! DEFINITION. The statements for the provers. Each docstring names the rule of spec/ it formalises, or the
sections it rests on where it is the model's own inference. -/

namespace Sys2Proof

/-- The 256-entry table of 95_test_vectors.md section 2.1, row by row. -/
def crcTable : List Byte :=
  [0x00, 0x31, 0x62, 0x53, 0xC4, 0xF5, 0xA6, 0x97, 0xB9, 0x88, 0xDB, 0xEA, 0x7D, 0x4C, 0x1F, 0x2E] ++
  [0x43, 0x72, 0x21, 0x10, 0x87, 0xB6, 0xE5, 0xD4, 0xFA, 0xCB, 0x98, 0xA9, 0x3E, 0x0F, 0x5C, 0x6D] ++
  [0x86, 0xB7, 0xE4, 0xD5, 0x42, 0x73, 0x20, 0x11, 0x3F, 0x0E, 0x5D, 0x6C, 0xFB, 0xCA, 0x99, 0xA8] ++
  [0xC5, 0xF4, 0xA7, 0x96, 0x01, 0x30, 0x63, 0x52, 0x7C, 0x4D, 0x1E, 0x2F, 0xB8, 0x89, 0xDA, 0xEB] ++
  [0x3D, 0x0C, 0x5F, 0x6E, 0xF9, 0xC8, 0x9B, 0xAA, 0x84, 0xB5, 0xE6, 0xD7, 0x40, 0x71, 0x22, 0x13] ++
  [0x7E, 0x4F, 0x1C, 0x2D, 0xBA, 0x8B, 0xD8, 0xE9, 0xC7, 0xF6, 0xA5, 0x94, 0x03, 0x32, 0x61, 0x50] ++
  [0xBB, 0x8A, 0xD9, 0xE8, 0x7F, 0x4E, 0x1D, 0x2C, 0x02, 0x33, 0x60, 0x51, 0xC6, 0xF7, 0xA4, 0x95] ++
  [0xF8, 0xC9, 0x9A, 0xAB, 0x3C, 0x0D, 0x5E, 0x6F, 0x41, 0x70, 0x23, 0x12, 0x85, 0xB4, 0xE7, 0xD6] ++
  [0x7A, 0x4B, 0x18, 0x29, 0xBE, 0x8F, 0xDC, 0xED, 0xC3, 0xF2, 0xA1, 0x90, 0x07, 0x36, 0x65, 0x54] ++
  [0x39, 0x08, 0x5B, 0x6A, 0xFD, 0xCC, 0x9F, 0xAE, 0x80, 0xB1, 0xE2, 0xD3, 0x44, 0x75, 0x26, 0x17] ++
  [0xFC, 0xCD, 0x9E, 0xAF, 0x38, 0x09, 0x5A, 0x6B, 0x45, 0x74, 0x27, 0x16, 0x81, 0xB0, 0xE3, 0xD2] ++
  [0xBF, 0x8E, 0xDD, 0xEC, 0x7B, 0x4A, 0x19, 0x28, 0x06, 0x37, 0x64, 0x55, 0xC2, 0xF3, 0xA0, 0x91] ++
  [0x47, 0x76, 0x25, 0x14, 0x83, 0xB2, 0xE1, 0xD0, 0xFE, 0xCF, 0x9C, 0xAD, 0x3A, 0x0B, 0x58, 0x69] ++
  [0x04, 0x35, 0x66, 0x57, 0xC0, 0xF1, 0xA2, 0x93, 0xBD, 0x8C, 0xDF, 0xEE, 0x79, 0x48, 0x1B, 0x2A] ++
  [0xC1, 0xF0, 0xA3, 0x92, 0x05, 0x34, 0x67, 0x56, 0x78, 0x49, 0x1A, 0x2B, 0xBC, 0x8D, 0xDE, 0xEF] ++
  [0x82, 0xB3, 0xE0, 0xD1, 0x46, 0x77, 0x24, 0x15, 0x3B, 0x0A, 0x59, 0x68, 0xFF, 0xCE, 0x9D, 0xAC]

/-- The bit-serial step of R62's first equivalent form: the feedback bit, the shift, and the polynomial when it is 1. -/
def serialStep (c : Byte) (d : Bool) : Byte :=
  if c.getLsbD 7 ^^ d then (c <<< 1) ^^^ 0x31 else c <<< 1

/-- The three bytes of a group, as one 24-bit pattern, first byte most significant. -/
def groupBytes (g : BitVec 24) : List Byte := [g.extractLsb' 16 8, g.extractLsb' 8 8, g.extractLsb' 0 8]

/-- The state after answering with a frame and nothing else. -/
def answered (s : Machine.State) (r : Frame) : Machine.State := { s with response := some r }

/-- The eight RD operations. -/
def readOps : List Instr := [.rdT, .rdP, .rdPn, .rdH, .rdValid, .rdDew, .rdRho, .rdSlp]

end Sys2Proof

open Sys2Proof Sys2Proof.Machine

/-! ## Reset, the step, the port -/

/-- R24, R150: after every reset both flags are 0, ALT holds `ALT_RESET` and no response stands on the port; the
first reset leaves nothing to come. -/
def Obligations.ResetClearsFlagsAndSetsAltitude : Prop :=
  (∀ draw incoming,
    (State.atReset draw incoming).arch.calValid = false ∧ (State.atReset draw incoming).arch.valid = false ∧
    (State.atReset draw incoming).arch.alt = Config.altReset ∧ (State.atReset draw incoming).response = none ∧
    (State.atReset draw incoming).incoming = incoming) ∧
  State.reset = State.atReset 0 []

/-- The invariant holds after every reset. -/
def Obligations.ReadingInvariantHoldsAtReset : Prop :=
  ∀ draw incoming, StateInv (State.atReset draw incoming)

/-- Headline: every step keeps the invariant: a stored reading has a calibration and its clamped ranges (TEMP is
always a number, R94), and only legal responses are sent. -/
def Obligations.EveryStepKeepsReadingInvariant : Prop :=
  ∀ s t, StateInv s → step s = .next t → StateInv t

/-- When the frame the host sends next decodes to an operation, the step is `exec` of it on the state with that
frame taken from the port (R40, R49). -/
def Obligations.RequestStepExecutesDecodedOperation : Prop :=
  ∀ s req rest i, s.incoming = .request req :: rest → decode req = .instr i →
    i.wellFormed = true ∧ step s = exec i { s with incoming := rest }

/-- R15, R150 to R152, with the host's script of log entry 14: with nothing sent the unit waits; a reset gives the
reset state and no response frame, the host going on with what it still sends. -/
def Obligations.IdleAndResetSteps : Prop :=
  (∀ s, s.incoming = [] → step s = .next s) ∧
  (∀ s rest, s.incoming = .reset :: rest → step s = .next (State.atReset s.draw rest))

/-- R165: every request is answered: the step ends in a next state with a response frame, whatever the bytes. -/
def Obligations.EveryRequestIsAnswered : Prop :=
  ∀ s req rest, s.incoming = .request req :: rest →
    ∃ t r, step s = .next t ∧ t.response = some r ∧ legalResponse r ∧ t.incoming = rest ∧ t.draw = s.draw

/-- R21, R22, R13, and log entry 1: what a working register holds between operations cannot be observed: two states
that agree but for the working registers and the last response step to states that agree, with the same new
response. -/
def Obligations.WorkingRegistersAreUnobservable : Prop :=
  ∀ s₁ s₂, AgreeButWork s₁ s₂ →
    ∃ t₁ t₂, step s₁ = .next t₁ ∧ step s₂ = .next t₂ ∧ AgreeButWork t₁ t₂ ∧
      (s₁.incoming ≠ [] → t₁.response = t₂.response)

/-- R14, the writes of the table, for every operation: what it does not list is unchanged. -/
def Obligations.OperationsWriteOnlyTheirRegisters : Prop :=
  ∀ i s t, exec i s = .next t →
    ((∀ c, i ≠ .calLoad c) → t.arch.cal = s.arch.cal ∧ t.arch.calValid = s.arch.calValid) ∧
    ((∀ v, i ≠ .altSet v) → t.arch.alt = s.arch.alt) ∧
    ((∀ p q h, i ≠ .convert p q h) →
      t.arch.temp = s.arch.temp ∧ t.arch.press = s.arch.press ∧ t.arch.hum = s.arch.hum ∧
      t.arch.valid = s.arch.valid ∧ t.work.rawT = s.work.rawT ∧ t.work.rawP = s.work.rawP ∧
      t.work.rawH = s.work.rawH ∧ t.work.tfine = s.work.tfine) ∧
    ((∀ b0 b1, i ≠ .crcCompute b0 b1) → (∀ buf, i ≠ .crcVerify buf) →
      t.work.crcReg = s.work.crcReg ∧ t.work.gidx = s.work.gidx ∧ t.work.okf = s.work.okf) ∧
    t.incoming = s.incoming ∧ t.draw = s.draw

/-- R37 (the working registers among the state, log entry 1): every operation but CAL.LOAD is idempotent: the same
operation again gives the same state and response. A CAL.LOAD after one that ran answers `ErrState` and changes
nothing more. -/
def Obligations.OperationsButCalLoadAreIdempotent : Prop :=
  (∀ i s t, (∀ c, i ≠ .calLoad c) → exec i s = .next t → exec i t = .next t) ∧
  (∀ c c' s t, exec (.calLoad c) s = .next t → exec (.calLoad c') t = .next (answered t [0x83]))

/-! ## Encoding -/

/-- Headline: decoding the encoding of a well-formed operation gives it back, for every `MAXBUF`. -/
def Obligations.DecodeOfEncodeIsIdentity : Prop :=
  ∀ maxBuf i, Instr.wellFormedFor maxBuf i = true → decodeFor maxBuf (encode i) = .instr i

/-- The other direction: every frame the decoder accepts is the encoding of the operation it reads. -/
def Obligations.EncodeOfDecodeIsIdentity : Prop :=
  ∀ maxBuf req i, decodeFor maxBuf req = .instr i → Instr.wellFormedFor maxBuf i = true ∧ encode i = req

/-- Frames written out from the spec's own examples (R56, R86, R87, R89) decode to what they stand for. -/
def Obligations.WrittenOutFramesDecode : Prop :=
  decode [0x01, 0xBE, 0xEF] = .instr (.crcCompute 0xBE 0xEF) ∧
  decode [0x02, 0xBE, 0xEF, 0x92] = .instr (.crcVerify [0xBE, 0xEF, 0x92]) ∧
  decode [0x11, 0x40, 0x5E, 0x00, 0x00, 0x00, 0x00, 0x00, 0x00] = .instr (.altSet 0x405E000000000000) ∧
  decode [0x20, 0x65, 0x5A, 0xC0, 0x7E, 0xED, 0x00, 0x75, 0x30] = .instr (.convert 0x655AC0 0x7EED00 0x7530) ∧
  decode [0x30] = .instr .rdT ∧ decode [0x3A] = .instr .rdSlp

/-- R33: a multi-byte field is read and sent most significant byte first: byte `k` of `be64(v)` is bits
`63-8k : 56-8k` of `v`, and reading the eight bytes back gives `v`. -/
def Obligations.BinarySixtyFourIsSentBigEndian : Prop :=
  ∀ v : F64, (be64 v).length = 8 ∧ (∀ k, k < 8 → (be64 v)[k]? = some (v.extractLsb' (56 - 8 * k) 8)) ∧
    BitVec.ofNat 64 (memRead (be64 v) 0 8) = v

/-- R49: the decoder's checks in their order: the empty frame, the opcode, the length, each with the error it raises,
then the operation the opcode names. -/
def Obligations.DecoderChecksInOrder : Prop :=
  (decodeErr .emptyFrame = .format ∧ (∀ code, decodeErr (.reservedOpcode code) = .illegal) ∧
    (∀ code n, decodeErr (.badLength code n) = .format)) ∧
  ∀ maxBuf req,
    (req = [] → decodeFor maxBuf req = .reject .emptyFrame) ∧
    (∀ code payload, req = code :: payload →
      (reservedOpcode code = true → decodeFor maxBuf req = .reject (.reservedOpcode code)) ∧
      (reservedOpcode code = false → ¬ lengthFits maxBuf code req.length →
        decodeFor maxBuf req = .reject (.badLength code req.length)) ∧
      (reservedOpcode code = false → lengthFits maxBuf code req.length →
        ∃ i, decodeFor maxBuf req = .instr i ∧ (encode i).head? = some code))

/-- R52: the empty frame answers `ErrFormat` and changes nothing. -/
def Obligations.EmptyFrameRaisesErrFormat : Prop :=
  ∀ s rest, s.incoming = .request [] :: rest →
    step s = .next { s with incoming := rest, response := some [0x81] }

/-- R132: a frame whose first byte is one of the 243 reserved values answers `ErrIllegal`, whatever follows, and
changes nothing. -/
def Obligations.ReservedOpcodeRaisesErrIllegal : Prop :=
  ((List.range 256).filter fun n => reservedOpcode (BitVec.ofNat 8 n)).length = 243 ∧
  ∀ s code payload rest, reservedOpcode code = true → s.incoming = .request (code :: payload) :: rest →
    step s = .next { s with incoming := rest, response := some [0x80] }

/-- R133: the decoder raises `ErrFormat` exactly for the empty frame and for a legal opcode with a length that is
not its own, `MAXBUF` bounding CRC.VERIFY when it is a number; and the step then answers 0x81. -/
def Obligations.ErrFormatExactlyForEmptyOrMisSizedFrames : Prop :=
  (∀ maxBuf req,
    (∃ e, decodeFor maxBuf req = .reject e ∧ decodeErr e = .format) ↔
      (req = [] ∨ ∃ code payload, req = code :: payload ∧ reservedOpcode code = false ∧
        ¬ lengthFits maxBuf code req.length)) ∧
  (∀ s req rest e, s.incoming = .request req :: rest → decode req = .reject e → decodeErr e = .format →
    step s = .next { s with incoming := rest, response := some [0x81] })

/-- R141: the order in which errors and completions win: empty frame, reserved opcode, wrong length, the operation's
state check, `ST_UNAVAIL`, `ST_UNDEF`, and only then `ST_OK`. -/
def Obligations.ErrorPriority : Prop :=
  ∀ s req rest, s.incoming = .request req :: rest →
    ∃ t, step s = .next t ∧
      (req = [] → t.response = some [0x81]) ∧
      (∀ code payload, req = code :: payload →
        (reservedOpcode code = true → t.response = some [0x80]) ∧
        (reservedOpcode code = false → ¬ lengthFits Config.maxBuf code req.length → t.response = some [0x81]) ∧
        (reservedOpcode code = false → lengthFits Config.maxBuf code req.length →
          (code = 0x10 → s.arch.calValid = true → t.response = some [0x83]) ∧
          (code = 0x20 → s.arch.calValid = false → t.response = some [0x82]) ∧
          (code ∈ ([0x30, 0x31, 0x32, 0x33, 0x38, 0x39, 0x3A] : List Byte) → s.arch.valid = false →
            t.response = some [0x01]) ∧
          (code = 0x38 → s.arch.valid = true → fle s.arch.hum 0x0000000000000000 = true →
            t.response = some (0x02 :: be64 Config.dewSentinel)) ∧
          (¬ (code = 0x10 ∧ s.arch.calValid = true) → ¬ (code = 0x20 ∧ s.arch.calValid = false) →
            ¬ (code ∈ ([0x30, 0x31, 0x32, 0x33, 0x38, 0x39, 0x3A] : List Byte) ∧ s.arch.valid = false) →
            ¬ (code = 0x38 ∧ fle s.arch.hum 0x0000000000000000 = true) →
            ∃ bytes, t.response = some (0x00 :: bytes))))

/-- R142: an error, `ST_UNAVAIL`, `ST_UNDEF`, and every CRC and RD operation leave every architectural register and
flag as it was. -/
def Obligations.ErrorsAndReadsChangeNoRegister : Prop :=
  ∀ s req rest t r, s.incoming = .request req :: rest → step s = .next t → t.response = some r →
    ((∃ st ∈ ([0x80, 0x81, 0x82, 0x83, 0x01, 0x02] : List Byte), r.head? = some st) ∨
      (∃ op ∈ ([0x01, 0x02, 0x30, 0x31, 0x32, 0x33, 0x34, 0x38, 0x39, 0x3A] : List Byte), req.head? = some op)) →
    t.arch = s.arch

/-! ## The CRC block -/

/-- R63: CRC.COMPUTE answers the CRC byte for every word in every state; only CRCREG is written (that the state keeps
it afterwards is the model's choice, log entry 1). -/
def Obligations.CrcComputeAnswersTheChecksum : Prop :=
  ∀ b0 b1 s, exec (.crcCompute b0 b1) s =
    .next { s with work := { s.work with crcReg := crc8 b0 b1 }, response := some [0x00, crc8 b0 b1] }

/-- R65, R68: CRC.VERIFY answers true exactly when the length is a multiple of 3 and every group's third byte is the
CRC of its first two; no architectural register and no working register of the COMP block changes. The last clause,
that GIDX and OKF stand in the state afterwards as the loop leaves them, is the model's own (log entries 1 and 19). -/
def Obligations.CrcVerifyAnswersConjunctionOfGroups : Prop :=
  ∀ buf s, ∃ (ok : Bool) (w : Work),
    (ok = true ↔ buf.length % 3 = 0 ∧ ∀ g, g < buf.length / 3 →
      buf.getD (3 * g + 2) 0 = crc8 (buf.getD (3 * g) 0) (buf.getD (3 * g + 1) 0)) ∧
    exec (.crcVerify buf) s =
      .next { s with work := w, response := some [0x00, if ok then 0x01 else 0x00] } ∧
    w.rawT = s.work.rawT ∧ w.rawP = s.work.rawP ∧ w.rawH = s.work.rawH ∧ w.tfine = s.work.tfine ∧
    (buf.length % 3 = 0 → w.gidx = buf.length / 3 ∧ w.okf = ok)

/-- R65, R66: a length that is not a multiple of 3 answers false with `ST_OK`, whatever the bytes. That the working
registers keep their contents, no group being examined, is the model's own (log entries 1 and 19). -/
def Obligations.VerifyRejectsLengthNotMultipleOfThree : Prop :=
  ∀ buf s, buf.length % 3 ≠ 0 → exec (.crcVerify buf) s = .next (answered s [0x00, 0x00])

/-- R67: the empty buffer verifies: the frame `02` answers true. -/
def Obligations.VerifyOfEmptyBufferIsTrue : Prop :=
  ∀ s rest, s.incoming = .request [0x02] :: rest →
    ∃ t, step s = .next t ∧ t.response = some [0x00, 0x01]

/-- R69: the response to a CRC frame is a function of the frame alone, and no architectural state changes. -/
def Obligations.CrcOperationsArePure : Prop :=
  ∀ code payload, code = 0x01 ∨ code = 0x02 →
    ∃ r, ∀ s rest, s.incoming = .request (code :: payload) :: rest →
      ∃ t, step s = .next t ∧ t.response = some r ∧ t.arch = s.arch

/-- R71: the three laws of the document's section 8. -/
def Obligations.VerifyLaws : Prop :=
  (∀ b0 b1 s, ∃ t, exec (.crcVerify [b0, b1, crc8 b0 b1]) s = .next t ∧ t.response = some [0x00, 0x01]) ∧
  (∀ (b0 b1 : Byte) (k : Nat) s, k < 24 →
    ∃ t, exec (.crcVerify (groupBytes ((b0 ++ b1 ++ crc8 b0 b1 : BitVec 24) ^^^ (1#24 <<< k)))) s = .next t ∧
      t.response = some [0x00, 0x00]) ∧
  (∀ buf s, buf.length % 3 ≠ 0 →
    ∃ t, exec (.crcVerify buf) s = .next t ∧ t.response = some [0x00, 0x00])

/-- The polynomial form of R62: read over GF(2), `crc8(b0, b1)` is
`((b0 ++ b1) xor 0xFF00) · x^8 mod (x^8 + x^5 + x^4 + 1)`. -/
def Obligations.CrcIsPolynomialRemainder : Prop :=
  ∀ b0 b1 : Byte,
    let poly (n : Nat) (v : BitVec n) : Polynomial (ZMod 2) :=
      ∑ i ∈ Finset.range n, if v.getLsbD i then Polynomial.X ^ i else 0
    poly 8 (crc8 b0 b1) =
      (poly 16 ((b0 ++ b1 : BitVec 16) ^^^ 0xFF00#16) * Polynomial.X ^ 8) %ₘ
        (Polynomial.X ^ 8 + Polynomial.X ^ 5 + Polynomial.X ^ 4 + 1)

/-- R62's equivalent forms: the bit-serial shift register preset to 0xFF, fed bit 7 of `b0` first; the table of
95_test_vectors.md section 2.1; and the byte step with each new bit an XOR of bits of `c xor b`. -/
def Obligations.CrcEquivalentForms : Prop :=
  (∀ b0 b1 : Byte, crc8 b0 b1 =
    (((List.range 16).map fun i => (b0 ++ b1 : BitVec 16).getLsbD (15 - i)).foldl serialStep 0xFF)) ∧
  (crcTable.length = 256 ∧ (∀ c b : Byte, crcTable[(c ^^^ b).toNat]? = some (crcByte c b)) ∧
    ∀ b0 b1 : Byte, crc8 b0 b1 =
      crcTable.getD ((crcTable.getD (0xFF ^^^ b0 : Byte).toNat 0) ^^^ b1).toNat 0) ∧
  (∀ c b : Byte,
    let x (i : Nat) : Bool := (c ^^^ b).getLsbD i
    let r := crcByte c b
    r.getLsbD 0 = (x 0 ^^ x 3 ^^ x 4 ^^ x 6) ∧
    r.getLsbD 1 = (x 1 ^^ x 4 ^^ x 5 ^^ x 7) ∧
    r.getLsbD 2 = (x 2 ^^ x 5 ^^ x 6) ∧
    r.getLsbD 3 = (x 3 ^^ x 6 ^^ x 7) ∧
    r.getLsbD 4 = (x 0 ^^ x 3 ^^ x 6 ^^ x 7) ∧
    r.getLsbD 5 = (x 0 ^^ x 1 ^^ x 3 ^^ x 6 ^^ x 7) ∧
    r.getLsbD 6 = (x 1 ^^ x 2 ^^ x 4 ^^ x 7) ∧
    r.getLsbD 7 = (x 2 ^^ x 3 ^^ x 5))

/-- Law L-1: the CRC is affine, with constant `crc8(0, 0) = 0x81`. -/
def Obligations.CrcIsAffine : Prop :=
  ∀ a b c d : Byte, crc8 (a ^^^ c) (b ^^^ d) = crc8 a b ^^^ crc8 c d ^^^ 0x81

/-- Law L-2: the CRC is a bijection in each byte. -/
def Obligations.CrcIsBijectiveInEachByte : Prop :=
  (∀ b0 : Byte, Function.Bijective fun b1 => crc8 b0 b1) ∧
  (∀ b1 : Byte, Function.Bijective fun b0 => crc8 b0 b1)

/-- Law L-4: two different valid groups differ in at least 4 bits. -/
def Obligations.ValidGroupsDifferInFourBits : Prop :=
  ∀ a b c d : Byte, (a ≠ c ∨ b ≠ d) →
    4 ≤ weight (a ^^^ c) + weight (b ^^^ d) + weight (crc8 a b ^^^ crc8 c d)

/-- Laws L-5 and L-6: an error of odd weight, and an error confined to 8 consecutive bits, is always detected. -/
def Obligations.OddAndBurstErrorsAreDetected : Prop :=
  ∀ (b0 b1 : Byte) (e : BitVec 24),
    (weight e % 2 = 1 ∨ (e ≠ 0 ∧ ∃ k, ∀ i, e.getLsbD i = true → k ≤ i ∧ i < k + 8)) →
    ∀ s, ∃ t, exec (.crcVerify (groupBytes ((b0 ++ b1 ++ crc8 b0 b1 : BitVec 24) ^^^ e))) s = .next t ∧
      t.response = some [0x00, 0x00]

/-- Law L-7: groups are independent: verifying a concatenation is verifying both parts. -/
def Obligations.VerifyOfConcatenation : Prop :=
  ∀ u v : List Byte, u.length % 3 = 0 → v.length % 3 = 0 → ∀ s, ∃ (x y : Bool) (t₁ t₂ t₃ : State),
    exec (.crcVerify u) s = .next t₁ ∧ t₁.response = some [0x00, if x then 0x01 else 0x00] ∧
    exec (.crcVerify v) s = .next t₂ ∧ t₂.response = some [0x00, if y then 0x01 else 0x00] ∧
    exec (.crcVerify (u ++ v)) s = .next t₃ ∧ t₃.response = some [0x00, if x && y then 0x01 else 0x00]

/-! ## Stores -/

/-- R86: the first CAL.LOAD after reset stores all 18 patterns, unchecked, and sets CALVALID. -/
def Obligations.CalLoadStoresCalibrationOnce : Prop :=
  ∀ c s, s.arch.calValid = false →
    exec (.calLoad c) s =
      .next { s with arch := { s.arch with cal := c, calValid := true }, response := some [0x00] }

/-- R135: CAL.LOAD with a calibration loaded answers `ErrState`, whatever the payload, and only a reset lets another
calibration in. -/
def Obligations.LoadedCalibrationIsImmutableUntilReset : Prop :=
  (∀ c s, s.arch.calValid = true → exec (.calLoad c) s = .next (answered s [0x83])) ∧
  (∀ s t, s.arch.calValid = true → step s = .next t → (∀ rest, s.incoming ≠ .reset :: rest) →
    t.arch.calValid = true ∧ t.arch.cal = s.arch.cal)

/-- R87: ALT.SET stores any pattern unchanged, in every state, and changes nothing else. -/
def Obligations.AltSetStoresPattern : Prop :=
  ∀ v s, exec (.altSet v) s = .next { s with arch := { s.arch with alt := v }, response := some [0x00] }

/-! ## CONVERT -/

/-- R134: CONVERT without a calibration answers `ErrNoCal` and changes nothing, for every sample. -/
def Obligations.ConvertWithoutCalibrationRaisesErrNoCal : Prop :=
  ∀ p q h s, s.arch.calValid = false → exec (.convert p q h) s = .next (answered s [0x82])

/-- R88 to R92, R95, R99, R104: what CONVERT leaves, for every sample: the three raw values, TFINE from the
unclamped sum, the clamped temperature, the pressure and humidity stages on TFINE, and VALID, all together (that the
raw values and TFINE stay in the state afterwards is the model's choice, log entry 1). -/
def Obligations.ConvertStoresReading : Prop :=
  ∀ (p q : BitVec 24) (h : BitVec 16) (s : State), s.arch.calValid = true →
    let c := s.arch.cal
    let rawP := BitVec.ofNat 20 (p.toNat / 16)
    let rawT := BitVec.ofNat 20 (q.toNat / 16)
    let rt := i2f rawT.toNat
    let t1 := i2f c.t1.toNat
    let a := fsub (fdiv rt (i2f 16384)) (fdiv t1 (i2f 1024))
    let b := fsub (fdiv rt (i2f 131072)) (fdiv t1 (i2f 8192))
    let sum := fadd (fmul a (i2f c.t2.toInt)) (fmul (fmul b b) (i2f c.t3.toInt))
    let tfine := BitVec.ofInt 32 (floorInt sum)
    exec (.convert p q h) s =
      .next { s with
        arch := { s.arch with
          temp := clamp (fdiv sum (i2f 5120)) (i2f (-40)) (i2f 85)
          press := match pCore (pressureArgs tfine rawP c) with
            | .zero => i2f 30000
            | .value v => clamp v (i2f 30000) (i2f 110000)
          hum := clamp (Config.hCore (humidityArgs tfine h c)) (i2f 0) (i2f 100)
          valid := true }
        work := { s.work with rawP := rawP, rawT := rawT, rawH := h, tfine := tfine }
        response := some [0x00] }

/-- R80: TEMP, PRESS and HUM after a CONVERT depend on the payload and the calibration registers alone. -/
def Obligations.ConvertDependsOnSampleAndCalibrationAlone : Prop :=
  ∀ p q h s₁ s₂ t₁ t₂, s₁.arch.calValid = true → s₂.arch.calValid = true → s₁.arch.cal = s₂.arch.cal →
    exec (.convert p q h) s₁ = .next t₁ → exec (.convert p q h) s₂ = .next t₂ →
    t₁.arch.temp = t₂.arch.temp ∧ t₁.arch.press = t₂.arch.press ∧ t₁.arch.hum = t₂.arch.hum

/-- R54: the low 4 bits of bytes 3 and 6 of a CONVERT frame are ignored: the step does not depend on them. -/
def Obligations.ConvertIgnoresDroppedBits : Prop :=
  ∀ (p₂ p₁ p₀ t₂ t₁ t₀ h₁ h₀ p₀' t₀' : Byte) (s : State) (rest : List HostEvent),
    p₀ >>> 4 = p₀' >>> 4 → t₀ >>> 4 = t₀' >>> 4 →
    step { s with incoming := .request [0x20, p₂, p₁, p₀, t₂, t₁, t₀, h₁, h₀] :: rest } =
    step { s with incoming := .request [0x20, p₂, p₁, p₀', t₂, t₁, t₀', h₁, h₀] :: rest }

/-- R57: the framed word the host makes of CRC.FRAME's answer passes CRC.CHECK; and CONVERT.RAW puts its 20-bit and
16-bit values into RAW_P, RAW_T and RAW_H as they are (that these stay in the state afterwards is the model's choice,
log entry 1). -/
def Obligations.PseudoOperationsDoWhatTheyAreFor : Prop :=
  (∀ (d0 d1 : Byte) (s : State), ∃ r t, exec (PseudoOp.crcFrame d0 d1).expand s = .next t ∧
    t.response = some [0x00, r] ∧ ∀ c s', ∃ u, exec (PseudoOp.crcCheck d0 d1 c).expand s' = .next u ∧
      u.response = some [0x00, if c = r then 0x01 else 0x00]) ∧
  (∀ (rawP rawT : BitVec 20) (rawH : BitVec 16) (s : State), s.arch.calValid = true →
    ∃ t, exec (PseudoOp.convertRaw rawP rawT rawH).expand s = .next t ∧
      t.work.rawP = rawP ∧ t.work.rawT = rawT ∧ t.work.rawH = rawH)

/-- R92 whole: for every content of the registers the sum `s` is finite and within [-2^22, 2^22], with the
bounds on `a`, `b` and the two products the rule derives it from; TFINE is its floor, fits its register, and is what
CONVERT leaves there (that the state keeps it afterwards is the model's choice, log entry 1); -64735.266456604004 has
floor -64736. -/
def Obligations.TemperatureSumIsBounded : Prop :=
  (∀ (rawT : BitVec 20) (c : Coeffs),
    let a := tempA rawT (u16 c.t1)
    let b := tempB rawT (u16 c.t1)
    let bb := fmul b b
    let var1 := tempVar1 rawT (u16 c.t1) (s16 c.t2)
    let var2 := tempVar2 rawT (u16 c.t1) (s16 c.t3)
    let sum := tempSumOf rawT c
    |(rawT.toNat : Int) - 16 * c.t1.toNat| ≤ 1048575 ∧
    |unitsOf a| < 64 * oneUnits ∧ |unitsOf var1| ≤ 2 ^ 21 * oneUnits ∧
    |unitsOf b| < 8 * oneUnits ∧ unitsOf bb < 64 * oneUnits ∧ |unitsOf var2| ≤ 2 ^ 21 * oneUnits ∧
    isFinite sum = true ∧ |unitsOf sum| ≤ 2 ^ 22 * oneUnits ∧
    floorInt sum * oneUnits ≤ unitsOf sum ∧ unitsOf sum < (floorInt sum + 1) * oneUnits ∧
    -4194304 ≤ floorInt sum ∧ floorInt sum ≤ 4194304 ∧
    (BitVec.ofInt 32 (floorInt sum)).toInt = floorInt sum) ∧
  (∀ p q h s, s.arch.calValid = true → ∃ t, exec (.convert p q h) s = .next t ∧
    t.work.tfine.toInt = floorInt (tempSumOf t.work.rawT s.arch.cal)) ∧
  floorInt 0xC0EF9BE886D00000 = -64736

/-- R94: `a`, `b`, `var1` and `b·b` are exact. With `n = raw_t - 16·T1`: `a = n/2^14`, `b = n/2^17`,
`var1 = n·T2/2^14`, `b·b = n²/2^34`. -/
def Obligations.TemperatureDifferencesAreExact : Prop :=
  ∀ (rawT : BitVec 20) (c : Coeffs),
    let n : Int := (rawT.toNat : Int) - 16 * c.t1.toNat
    unitsOf (tempA rawT (u16 c.t1)) * 2 ^ 14 = n * oneUnits ∧
    unitsOf (tempB rawT (u16 c.t1)) * 2 ^ 17 = n * oneUnits ∧
    unitsOf (tempVar1 rawT (u16 c.t1) (s16 c.t2)) * 2 ^ 14 = n * c.t2.toInt * oneUnits ∧
    unitsOf (fmul (tempB rawT (u16 c.t1)) (tempB rawT (u16 c.t1))) * 2 ^ 34 = n * n * oneUnits

/-- R94, R91: whatever the sample and the calibration, the temperature CONVERT stores is a finite number in
[-40, 85]. -/
def Obligations.StoredTemperatureIsAlwaysInRange : Prop :=
  ∀ p q h s, s.arch.calValid = true → ∃ t, exec (.convert p q h) s = .next t ∧ tempOk t.arch.temp = true

/-- R96 P-3, R97: with `P1 = 0` CONVERT succeeds and PRESS is exactly 30000.0, whatever the raw pressure, the
temperature and the other coefficients. -/
def Obligations.ZeroFirstPressureCoefficientGivesSentinel : Prop :=
  ∀ p q h s, s.arch.calValid = true → s.arch.cal.p1 = 0 → ∃ t, exec (.convert p q h) s = .next t ∧
    t.arch.press = 0x40DD4C0000000000 ∧ t.arch.valid = true ∧ t.response = some [0x00]

/-- R101: the humidity written to HUM is the clamped value of the humidity stage, where the clamp gives exactly 100.0
above 100 and exactly +0.0 below 0. -/
def Obligations.HumidityClampIsExact : Prop :=
  (∀ p q h s, s.arch.calValid = true → ∃ t, exec (.convert p q h) s = .next t ∧
    t.arch.hum = clamp (Config.hCore (humidityArgs (BitVec.ofInt 32 (floorInt (tempSumOf (top20 q) s.arch.cal))) h
      s.arch.cal)) 0x0000000000000000 0x4059000000000000) ∧
  (∀ v : F64, fgt v 0x4059000000000000 = true → clamp v 0x0000000000000000 0x4059000000000000 = 0x4059000000000000) ∧
  (∀ v : F64, flt v 0x0000000000000000 = true → clamp v 0x0000000000000000 0x4059000000000000 = 0x0000000000000000)

/-- R84: the clamp, case by case: below the range, above it, inside it (unchanged bit for bit), the infinities, and
a NaN (unchanged). -/
def Obligations.ClampCases : Prop :=
  ∀ v lo hi : F64, isFinite lo = true → isFinite hi = true → fle lo hi = true →
    (flt v lo = true → clamp v lo hi = lo) ∧
    (fgt v hi = true → clamp v lo hi = hi) ∧
    (fle lo v = true → fle v hi = true → clamp v lo hi = v) ∧
    (isNaN v = true → clamp v lo hi = v) ∧
    clamp 0xFFF0000000000000 lo hi = lo ∧
    clamp 0x7FF0000000000000 lo hi = hi

/-! ## Read-out and derived quantities -/

/-- R111: without a reading every RD operation but RD.VALID answers `ST_UNAVAIL` and no payload; and once there is a
reading only a reset takes it away. -/
def Obligations.UnavailableBeforeFirstReading : Prop :=
  (∀ i ∈ readOps, i ≠ .rdValid → ∀ s, s.arch.valid = false → exec i s = .next (answered s [0x01])) ∧
  (∀ s t, s.arch.valid = true → step s = .next t → (∀ rest, s.incoming ≠ .reset :: rest) →
    t.arch.valid = true)

/-- R112, R114, R115: with a reading stored RD.T, RD.PN and RD.H answer the registers as they are. -/
def Obligations.PrimaryReadsAnswerTheRegisters : Prop :=
  ∀ s, s.arch.valid = true →
    exec .rdT s = .next (answered s (0x00 :: be64 s.arch.temp)) ∧
    exec .rdPn s = .next (answered s (0x00 :: be64 s.arch.press)) ∧
    exec .rdH s = .next (answered s (0x00 :: be64 s.arch.hum))

/-- R113: RD.P answers PRESS divided by 100.0; the sentinel reads as exactly 300.0, the upper clamp as 1100.0. -/
def Obligations.PressureReadsInHectopascal : Prop :=
  (∀ s, s.arch.valid = true →
    exec .rdP s = .next (answered s (0x00 :: be64 (fdiv s.arch.press (i2f 100))))) ∧
  fdiv 0x40DD4C0000000000 0x4059000000000000 = 0x4072C00000000000 ∧
  fdiv 0x40FADB0000000000 0x4059000000000000 = 0x4091300000000000

/-- R85, R113: a pressure in [30000, 110000] native units reads as a number in [300, 1100] hPa; a NaN stays a NaN. -/
def Obligations.PressureInHectopascalIsInRange : Prop :=
  ∀ v : F64,
    (inRange 0x40DD4C0000000000 0x40FADB0000000000 v = true →
      inRange 0x4072C00000000000 0x4091300000000000 (fdiv v 0x4059000000000000) = true) ∧
    (isNaN v = true → isNaN (fdiv v 0x4059000000000000) = true)

/-- R116: RD.VALID answers the flag in every state. -/
def Obligations.ReadValidAnswersTheFlag : Prop :=
  ∀ s, exec .rdValid s = .next (answered s [0x00, if s.arch.valid then 0x01 else 0x00])

/-- R118, R119: RD.DEW with a reading stored: the sentinel under `ST_UNDEF` when the humidity is not above zero,
otherwise the formula of R118 in its nesting. -/
def Obligations.DewPointAnswers : Prop :=
  ∀ s, s.arch.valid = true →
    (fle s.arch.hum 0x0000000000000000 = true →
      exec .rdDew s = .next (answered s (0x02 :: be64 Config.dewSentinel))) ∧
    (fle s.arch.hum 0x0000000000000000 = false →
      let g := fdiv (fmul 0x40319EB851EB851F s.arch.temp) (fadd 0x406E63D70A3D70A4 s.arch.temp)
      let h := fadd (fdiv (fsub (Config.log10 s.arch.hum) (i2f 2)) 0x3FDBCB923A29C77A) g
      exec .rdDew s = .next (answered s
        (0x00 :: be64 (fdiv (fmul 0x406E63D70A3D70A4 h) (fsub 0x40319EB851EB851F h)))))

/-- R119: a stored humidity that is a number makes the dew point undefined exactly when it is +0.0 or -0.0. -/
def Obligations.DewPointUndefinedExactlyAtZeroHumidity : Prop :=
  ∀ v : F64, humOk v = true →
    (fle v 0x0000000000000000 = true ↔ v = 0x0000000000000000 ∨ v = 0x8000000000000000)

/-- R118, corner cases: for a temperature in [-40, 85] the divisor `243.12 + T` is at least 203.12. -/
def Obligations.DewPointDivisorIsPositive : Prop :=
  ∀ v : F64, tempOk v = true → fle 0x406963D70A3D70A4 (fadd 0x406E63D70A3D70A4 v) = true

/-- R121, R123, R162: with a reading stored RD.RHO and RD.SLP answer the configuration functions of the stored
registers, RD.SLP with ALT as it stands: an ALT.SET in between changes its answer to the same reading. R120, R122:
inside, both stand on the saturation vapour pressure `6.112·exp(17.62·T/(243.12+T))` and the two gas constants. -/
def Obligations.DensityAndSeaLevelPressureAnswers : Prop :=
  (∀ s, s.arch.valid = true →
    exec .rdRho s = .next (answered s (0x00 :: be64 (rho s.arch.temp s.arch.press s.arch.hum))) ∧
    exec .rdSlp s = .next (answered s (0x00 :: be64 (slp s.arch.temp s.arch.press s.arch.hum s.arch.alt))) ∧
    ∀ v t, exec (.altSet v) s = .next t →
      ∃ u, exec .rdSlp t = .next u ∧
        u.response = some (0x00 :: be64 (slp s.arch.temp s.arch.press s.arch.hum v))) ∧
  ∀ t p h alt : F64,
    let gas : GasConstants := ⟨0x4071F0ED916872B0, 0x407CD85E353F7CEE⟩
    let saturation := fmul 0x401872B020C49BA6
      (Config.exp (fdiv (fmul 0x40319EB851EB851F t) (fadd 0x406E63D70A3D70A4 t)))
    rho t p h = Config.rhoFormula gas saturation t p h ∧ slp t p h alt = Config.slpFormula gas saturation t p h alt

/-- R110: an RD operation writes nothing and answers a function of the architectural registers alone. -/
def Obligations.ReadOperationsWriteNothing : Prop :=
  ∀ i ∈ readOps, ∃ answer : Arch → Frame, ∀ s, exec i s = .next (answered s (answer s.arch))

/-! ## binary64 arithmetic -/

/-- R82: `fadd` and `fsub` of finite values are rounded once, to nearest, ties to even. In units of
2^-1074: a finite result is at least as near the exact sum as every finite value, and even where another is as near;
the result is finite exactly below the overflow threshold 2^1024 - 2^970, and otherwise an infinity of the exact
sum's sign. A NaN operand, or infinities that cancel, give a quiet NaN; otherwise an infinite operand is the result, in
`fsub` with its sign inverted where it is the second. The threshold, the signs and the results with infinite and NaN
operands are IEEE 754 details the spec does not write out (log entry 11); which NaN is free (log entry 10). -/
def Obligations.SumsAreCorrectlyRounded : Prop :=
  (∀ a b : F64, isNaN a = true ∨ isNaN b = true →
    isQuietNaN (fadd a b) = true ∧ isQuietNaN (fsub a b) = true) ∧
  (∀ a b : F64, isInf a = true → isInf b = true →
    (signBit a = signBit b → fadd a b = a ∧ isQuietNaN (fsub a b) = true) ∧
    (signBit a ≠ signBit b → isQuietNaN (fadd a b) = true ∧ fsub a b = a)) ∧
  (∀ a b : F64, isInf a = true → isFinite b = true → fadd a b = a ∧ fsub a b = a) ∧
  (∀ a b : F64, isFinite a = true → isInf b = true →
    fadd a b = b ∧ isInf (fsub a b) = true ∧ signBit (fsub a b) = !signBit b) ∧
  ∀ a b : F64, isFinite a = true → isFinite b = true →
    let rounded (exact : Int) (r : F64) : Prop :=
      (isFinite r = true ↔ |exact| < overflowUnits) ∧
      (isFinite r = false → isInf r = true) ∧
      (exact ≠ 0 → (signBit r = true ↔ exact < 0)) ∧
      (isFinite r = true → ∀ c : F64, isFinite c = true →
        |exact - unitsOf r| ≤ |exact - unitsOf c| ∧
        (|exact - unitsOf r| = |exact - unitsOf c| → unitsOf c ≠ unitsOf r → r.getLsbD 0 = false))
    rounded (unitsOf a + unitsOf b) (fadd a b) ∧ rounded (unitsOf a - unitsOf b) (fsub a b) ∧
    (unitsOf a + unitsOf b = 0 → signBit (fadd a b) = (signBit a && signBit b)) ∧
    (unitsOf a - unitsOf b = 0 → signBit (fsub a b) = (signBit a && !signBit b))

/-- R82: `fmul` of finite values is rounded once, to nearest, ties to even; its sign is the product's. A NaN operand,
or an infinity times a zero, gives a quiet NaN; any other product with an infinite operand is an infinity of the
product's sign. The threshold, the signs and the results with infinite and NaN operands are IEEE 754 details the spec
does not write out (log entry 11); which NaN is free (log entry 10). -/
def Obligations.ProductsAreCorrectlyRounded : Prop :=
  (∀ a b : F64, isNaN a = true ∨ isNaN b = true → isQuietNaN (fmul a b) = true) ∧
  (∀ a b : F64, isInf a = true → isNaN b = false →
    (isFinite b = true ∧ unitsOf b = 0 → isQuietNaN (fmul a b) = true ∧ isQuietNaN (fmul b a) = true) ∧
    (isInf b = true ∨ unitsOf b ≠ 0 →
      isInf (fmul a b) = true ∧ signBit (fmul a b) = (signBit a != signBit b) ∧
      isInf (fmul b a) = true ∧ signBit (fmul b a) = (signBit a != signBit b))) ∧
  ∀ a b : F64, isFinite a = true → isFinite b = true →
    let exact : Int := unitsOf a * unitsOf b
    let r := fmul a b
    (isFinite r = true ↔ |exact| < overflowUnits * oneUnits) ∧
    (isFinite r = false → isInf r = true) ∧
    signBit r = (signBit a != signBit b) ∧
    (isFinite r = true → ∀ c : F64, isFinite c = true →
      |exact - unitsOf r * oneUnits| ≤ |exact - unitsOf c * oneUnits| ∧
      (|exact - unitsOf r * oneUnits| = |exact - unitsOf c * oneUnits| → unitsOf c ≠ unitsOf r →
        r.getLsbD 0 = false))

/-- R82: `fdiv` of finite values by a non-zero one is rounded once, to nearest, ties to even; a non-zero value divided
by zero is an infinity; zero by zero is a quiet NaN. A NaN operand, or an infinity by an infinity, gives a quiet NaN;
an infinity by a finite value is an infinity, a finite value by an infinity a zero, with the quotient's sign. The
threshold, the signs and the results with infinite and NaN operands are IEEE 754 details the spec does not write out
(log entry 11); which NaN is free (log entry 10). -/
def Obligations.QuotientsAreCorrectlyRounded : Prop :=
  (∀ a b : F64, isNaN a = true ∨ isNaN b = true → isQuietNaN (fdiv a b) = true) ∧
  (∀ a b : F64, isInf a = true → isInf b = true → isQuietNaN (fdiv a b) = true) ∧
  (∀ a b : F64, isInf a = true → isFinite b = true →
    isInf (fdiv a b) = true ∧ signBit (fdiv a b) = (signBit a != signBit b)) ∧
  (∀ a b : F64, isFinite a = true → isInf b = true →
    isFinite (fdiv a b) = true ∧ unitsOf (fdiv a b) = 0 ∧ signBit (fdiv a b) = (signBit a != signBit b)) ∧
  ∀ a b : F64, isFinite a = true → isFinite b = true →
    (unitsOf b ≠ 0 →
      let exact : Int := unitsOf a * oneUnits
      let r := fdiv a b
      (isFinite r = true ↔ |exact| < overflowUnits * |unitsOf b|) ∧
      (isFinite r = false → isInf r = true) ∧
      signBit r = (signBit a != signBit b) ∧
      (isFinite r = true → ∀ c : F64, isFinite c = true →
        |exact - unitsOf r * unitsOf b| ≤ |exact - unitsOf c * unitsOf b| ∧
        (|exact - unitsOf r * unitsOf b| = |exact - unitsOf c * unitsOf b| → unitsOf c ≠ unitsOf r →
          r.getLsbD 0 = false))) ∧
    (unitsOf b = 0 → unitsOf a ≠ 0 →
      isInf (fdiv a b) = true ∧ signBit (fdiv a b) = (signBit a != signBit b)) ∧
    (unitsOf b = 0 → unitsOf a = 0 → isQuietNaN (fdiv a b) = true)

/-- R83: `i2f` is exact for every integer of magnitude below 2^53. -/
def Obligations.IntegerConversionIsExact : Prop :=
  ∀ n : Int, |n| < 2 ^ 53 → isFinite (i2f n) = true ∧ unitsOf (i2f n) = n * oneUnits
end

