-- ==== Sys2Proof/Laws/Binary64.lean ====
section
/-! SUPPORT. Laws of binary64: patterns and the values they stand for, and what rounding once can give. -/

namespace Sys2Proof.Machine

/-! ## Patterns -/

/-- The magnitude bits 62:0 stand for, in units of 2^-1074. -/
def magOfBits (m : Nat) : Nat :=
  if m / 2 ^ 52 = 0 then m % 2 ^ 52 else (2 ^ 52 + m % 2 ^ 52) * 2 ^ (m / 2 ^ 52 - 1)

theorem signBit_eq (v : F64) : signBit v = decide (2 ^ 63 ≤ v.toNat) := by
  have h := v.isLt
  rw [signBit, BitVec.getLsbD, Nat.testBit_eq_decide_div_mod_eq]
  congr 1
  apply propext
  omega

theorem expField_bits (v : F64) : expField v = v.toNat / 2 ^ 52 % 2 ^ 11 := by
  rw [expField]
  split
  · rename_i h; rw [h]; rfl
  · rename_i h; rw [h]

theorem expField_eq (v : F64) : expField v = v.toNat % 2 ^ 63 / 2 ^ 52 := by
  rw [expField_bits]; omega

theorem fracField_eq (v : F64) : fracField v = v.toNat % 2 ^ 63 % 2 ^ 52 := by
  rw [fracField]; omega

theorem magUnits_eq (v : F64) : magUnits v = magOfBits (v.toNat % 2 ^ 63) := by
  rw [magUnits, magOfBits, expField_eq, fracField_eq]

theorem isFinite_iff (v : F64) : isFinite v = true ↔ v.toNat % 2 ^ 63 < infMagnitude := by
  rw [isFinite, expField_eq, infMagnitude, bne_iff_ne]
  omega

theorem isInf_iff (v : F64) : isInf v = true ↔ v.toNat % 2 ^ 63 = infMagnitude := by
  rw [isInf, expField_eq, fracField_eq, infMagnitude, Bool.and_eq_true, beq_iff_eq, beq_iff_eq]
  omega

theorem isNaN_iff (v : F64) : isNaN v = true ↔ infMagnitude < v.toNat % 2 ^ 63 := by
  rw [isNaN, expField_eq, fracField_eq, infMagnitude, Bool.and_eq_true, beq_iff_eq, bne_iff_ne]
  omega

theorem isNaN_of_isFinite {v : F64} (h : isFinite v = true) : isNaN v = false := by
  rw [← Bool.not_eq_true, isNaN_iff]
  rw [isFinite_iff] at h
  omega

theorem isInf_of_isFinite {v : F64} (h : isFinite v = true) : isInf v = false := by
  rw [← Bool.not_eq_true, isInf_iff]
  rw [isFinite_iff] at h
  omega

theorem packSign_toNat (neg : Bool) {m : Nat} (h : m < 2 ^ 63) :
    (packSign neg m).toNat = (if neg then 2 ^ 63 else 0) + m := by
  rw [packSign, BitVec.toNat_ofNat, Nat.mod_eq_of_lt]
  split <;> omega

theorem packSign_mag (neg : Bool) {m : Nat} (h : m < 2 ^ 63) : (packSign neg m).toNat % 2 ^ 63 = m := by
  rw [packSign_toNat neg h]
  split <;> omega

theorem packSign_signBit (neg : Bool) {m : Nat} (h : m < 2 ^ 63) : signBit (packSign neg m) = neg := by
  rw [signBit_eq, packSign_toNat neg h]
  cases neg
  · simp; omega
  · simp

/-- The value of a pattern, from its sign and its bits 62:0. -/
theorem unitsOf_packSign (neg : Bool) {m : Nat} (h : m < 2 ^ 63) :
    unitsOf (packSign neg m) = if neg then -(magOfBits m : Int) else (magOfBits m : Int) := by
  rw [unitsOf, magUnits_eq, packSign_mag neg h, packSign_signBit neg h]

theorem infMagnitude_lt : infMagnitude < 2 ^ 63 := by rw [infMagnitude]; omega

/-- A pattern is its sign and its bits 62:0. -/
theorem packSign_self (v : F64) : packSign (signBit v) (v.toNat % 2 ^ 63) = v := by
  apply BitVec.eq_of_toNat_eq
  rw [packSign_toNat _ (Nat.mod_lt _ (by decide)), signBit_eq]
  have h := v.isLt
  by_cases h2 : 2 ^ 63 ≤ v.toNat
  · rw [decide_eq_true h2, if_pos rfl]; omega
  · rw [decide_eq_false h2]; simp; omega

/-! ## The values the format has -/

/-- A significand of up to 53 bits moved up by `k`: its bits, as the exponent field counts them. -/
theorem magOfBits_scaled (k sig : Nat) (h : sig ≤ 2 ^ 53) (hk : k = 0 ∨ 2 ^ 52 ≤ sig) :
    magOfBits (k * 2 ^ 52 + sig) = sig * 2 ^ k := by
  rw [magOfBits]
  rcases lt_trichotomy sig (2 ^ 52) with hs | hs | hs
  · have : k = 0 := by omega
    subst this
    rw [if_pos (by omega)]
    simp; omega
  · subst hs
    rw [if_neg (by omega), show (k * 2 ^ 52 + 2 ^ 52) % 2 ^ 52 = 0 by omega,
      show (k * 2 ^ 52 + 2 ^ 52) / 2 ^ 52 - 1 = k by omega, Nat.add_zero]
  · rcases Nat.lt_or_eq_of_le h with h2 | h2
    · rw [if_neg (by omega), show 2 ^ 52 + (k * 2 ^ 52 + sig) % 2 ^ 52 = sig by omega,
        show (k * 2 ^ 52 + sig) / 2 ^ 52 - 1 = k by omega]
    · subst h2
      rw [if_neg (by omega), show (k * 2 ^ 52 + 2 ^ 53) % 2 ^ 52 = 0 by omega,
        show (k * 2 ^ 52 + 2 ^ 53) / 2 ^ 52 - 1 = k + 1 by omega, Nat.add_zero, Nat.pow_succ 2 k]
      ring

/-- Every magnitude is a significand of at most 53 bits moved up, with all 53 bits in use when it is moved. -/
theorem magOfBits_form (m : Nat) : ∃ k sig, m = k * 2 ^ 52 + sig ∧ sig < 2 ^ 53 ∧ (k = 0 ∨ 2 ^ 52 ≤ sig) ∧
    magOfBits m = sig * 2 ^ k := by
  by_cases h : m / 2 ^ 52 = 0
  · exact ⟨0, m, by omega, by omega, .inl rfl, by rw [magOfBits, if_pos h]; simp; omega⟩
  · refine ⟨m / 2 ^ 52 - 1, 2 ^ 52 + m % 2 ^ 52, by omega, by omega, .inr (by omega), ?_⟩
    rw [magOfBits, if_neg h]

/-- The next pattern up is one step of the significand up. -/
theorem magOfBits_succ_lt (m : Nat) : magOfBits m < magOfBits (m + 1) := by
  obtain ⟨k, sig, hm, hlt, hk, hv⟩ := magOfBits_form m
  have h2 : magOfBits (m + 1) = (sig + 1) * 2 ^ k := by
    rw [show m + 1 = k * 2 ^ 52 + (sig + 1) by omega]
    exact magOfBits_scaled k (sig + 1) (by omega) (by omega)
  rw [hv, h2]
  exact Nat.mul_lt_mul_of_pos_right (by omega) (Nat.two_pow_pos k)

/-- Greater bits are a greater magnitude. -/
theorem magOfBits_strictMono : StrictMono magOfBits := strictMono_nat_of_lt_succ magOfBits_succ_lt

/-- The magnitude past the greatest finite one: 2^1024 in units. -/
theorem magOfBits_infMagnitude : magOfBits infMagnitude = 2 ^ 2098 := by decide +kernel

/-! ## Rounding -/

/-- `roundEven` lies within half of the exact quotient, and is even at a tie. -/
theorem roundEven_near (n d : Nat) (hd : 0 < d) :
    2 * n ≤ (2 * roundEven n d + 1) * d ∧ 2 * roundEven n d * d ≤ 2 * n + d ∧
    ((2 * n = (2 * roundEven n d + 1) * d ∨ 2 * roundEven n d * d = 2 * n + d) → roundEven n d % 2 = 0) := by
  have h := Nat.div_add_mod n d
  have hr := Nat.mod_lt n hd
  simp only [roundEven]
  generalize n / d = q at *
  generalize n % d = r at *
  split
  · refine ⟨by nlinarith, by nlinarith, ?_⟩
    rintro (h1 | h1) <;> exfalso <;> nlinarith
  · split
    · refine ⟨by nlinarith, by nlinarith, ?_⟩
      rintro (h1 | h1) <;> exfalso <;> nlinarith
    · have : 2 * r = d := by omega
      rcases Nat.mod_two_eq_zero_or_one q with h2 | h2 <;> rw [h2]
      · exact ⟨by nlinarith, by nlinarith, fun _ => by omega⟩
      · exact ⟨by nlinarith, by nlinarith, fun _ => by omega⟩

/-- A quotient at least `k` rounds to at least `k`, and one at most `k` to at most `k`. -/
theorem roundEven_le (n d k : Nat) (hd : 0 < d) (h : n ≤ k * d) : roundEven n d ≤ k := by
  obtain ⟨-, h2, h3⟩ := roundEven_near n d hd
  by_contra hc
  have : k + 1 ≤ roundEven n d := by omega
  nlinarith

theorem le_roundEven (n d k : Nat) (hd : 0 < d) (h : k * d ≤ n) : k ≤ roundEven n d := by
  obtain ⟨h1, -, h3⟩ := roundEven_near n d hd
  by_contra hc
  have : roundEven n d + 1 ≤ k := by omega
  nlinarith

/-- How many low bits of `n / d` rounding leaves out. -/
def roundShift (n d : Nat) : Nat := Nat.log2 (n / d) - 52

/-- The rounded significand. -/
def roundSig (n d : Nat) : Nat := roundEven n (d * 2 ^ roundShift n d)

theorem roundMagnitude_eq (n d : Nat) :
    roundMagnitude n d = min (roundShift n d * 2 ^ 52 + roundSig n d) infMagnitude := rfl

theorem roundShift_lt (n d : Nat) (hd : 0 < d) : n < 2 ^ 53 * (d * 2 ^ roundShift n d) := by
  have h1 : n / d < 2 ^ (Nat.log2 (n / d) + 1) := Nat.lt_log2_self
  have h2 : n / d < 2 ^ (53 + roundShift n d) :=
    lt_of_lt_of_le h1 (Nat.pow_le_pow_right (by decide) (by rw [roundShift]; omega))
  rw [Nat.pow_add] at h2
  have h3 := (Nat.div_lt_iff_lt_mul hd).mp h2
  calc n < 2 ^ 53 * 2 ^ roundShift n d * d := h3
    _ = _ := by ring

theorem le_of_roundShift_pos (n d : Nat) (hd : 0 < d) (h : 0 < roundShift n d) :
    2 ^ 52 * (d * 2 ^ roundShift n d) ≤ n := by
  have hl : Nat.log2 (n / d) = 52 + roundShift n d := by rw [roundShift] at *; omega
  have h0 : n / d ≠ 0 := by
    intro h0
    rw [h0, Nat.log2_zero] at hl
    omega
  have h2 : 2 ^ (52 + roundShift n d) ≤ n / d := by rw [← hl]; exact Nat.log2_self_le h0
  rw [Nat.pow_add] at h2
  have h3 := (Nat.le_div_iff_mul_le hd).mp h2
  calc 2 ^ 52 * (d * 2 ^ roundShift n d) = 2 ^ 52 * 2 ^ roundShift n d * d := by ring
    _ ≤ n := h3

theorem roundSig_le (n d : Nat) (hd : 0 < d) : roundSig n d ≤ 2 ^ 53 :=
  roundEven_le _ _ _ (Nat.mul_pos hd (Nat.two_pow_pos _)) (Nat.le_of_lt (roundShift_lt n d hd))

theorem roundShift_zero_or (n d : Nat) (hd : 0 < d) : roundShift n d = 0 ∨ 2 ^ 52 ≤ roundSig n d := by
  rcases Nat.eq_zero_or_pos (roundShift n d) with h | h
  · exact .inl h
  · exact .inr (le_roundEven _ _ _ (Nat.mul_pos hd (Nat.two_pow_pos _)) (le_of_roundShift_pos n d hd h))

/-- The value of the rounded magnitude before it is cut off at infinity. -/
theorem magOfBits_rounded (n d : Nat) (hd : 0 < d) :
    magOfBits (roundShift n d * 2 ^ 52 + roundSig n d) = roundSig n d * 2 ^ roundShift n d :=
  magOfBits_scaled _ _ (roundSig_le n d hd) (roundShift_zero_or n d hd)

/-- A value of the format either is a multiple of the rounding's last place, or lies below the exact value's
binade, where the rounding's last place is finer still. -/
theorem magOfBits_multiple_or_below (n d m : Nat) (hd : 0 < d) :
    (∃ t, magOfBits m = t * 2 ^ roundShift n d) ∨
    (magOfBits m < 2 ^ 52 * 2 ^ roundShift n d ∧ 2 ^ 52 * (d * 2 ^ roundShift n d) ≤ n) := by
  obtain ⟨k, sig, -, hlt, -, hv⟩ := magOfBits_form m
  by_cases h : roundShift n d ≤ k
  · refine .inl ⟨sig * 2 ^ (k - roundShift n d), ?_⟩
    rw [hv, Nat.mul_assoc, ← Nat.pow_add, Nat.sub_add_cancel h]
  · refine .inr ⟨?_, le_of_roundShift_pos n d hd (by omega)⟩
    rw [hv]
    have h1 : (2 : Nat) ^ (k + 1) ≤ 2 ^ roundShift n d := Nat.pow_le_pow_right (by decide) (by omega)
    have h2 : 0 < 2 ^ k := Nat.two_pow_pos k
    rw [Nat.pow_succ] at h1
    calc sig * 2 ^ k < 2 ^ 53 * 2 ^ k := Nat.mul_lt_mul_of_pos_right hlt h2
      _ = 2 ^ 52 * (2 ^ k * 2) := by ring
      _ ≤ 2 ^ 52 * 2 ^ roundShift n d := Nat.mul_le_mul_left _ h1

/-- Rounding never passes a value of the format from below. -/
theorem roundMagnitude_le (n d m : Nat) (hd : 0 < d) (h : n ≤ d * magOfBits m) : roundMagnitude n d ≤ m := by
  rw [roundMagnitude_eq]
  refine le_trans (min_le_left _ _) (magOfBits_strictMono.le_iff_le.mp ?_)
  have hQ : 0 < d * 2 ^ roundShift n d := Nat.mul_pos hd (Nat.two_pow_pos _)
  rw [magOfBits_rounded n d hd]
  rcases magOfBits_multiple_or_below n d m hd with ⟨t, ht⟩ | ⟨h1, h2⟩
  · rw [ht] at h ⊢
    exact Nat.mul_le_mul_right _ (roundEven_le _ _ _ hQ (le_trans h (le_of_eq (by ring))))
  · exfalso
    have h3 : d * magOfBits m < d * (2 ^ 52 * 2 ^ roundShift n d) := Nat.mul_lt_mul_of_pos_left h1 hd
    have h4 : d * (2 ^ 52 * 2 ^ roundShift n d) = 2 ^ 52 * (d * 2 ^ roundShift n d) := by ring
    omega

/-- Rounding never passes a value of the format from above. -/
theorem le_roundMagnitude (n d m : Nat) (hd : 0 < d) (hm : m ≤ infMagnitude) (h : d * magOfBits m ≤ n) :
    m ≤ roundMagnitude n d := by
  rw [roundMagnitude_eq]
  refine le_min (magOfBits_strictMono.le_iff_le.mp ?_) hm
  have hQ : 0 < d * 2 ^ roundShift n d := Nat.mul_pos hd (Nat.two_pow_pos _)
  rw [magOfBits_rounded n d hd]
  rcases magOfBits_multiple_or_below n d m hd with ⟨t, ht⟩ | ⟨h1, h2⟩
  · rw [ht] at h ⊢
    exact Nat.mul_le_mul_right _ (le_roundEven _ _ _ hQ (le_trans (le_of_eq (by ring)) h))
  · exact le_trans (Nat.le_of_lt h1) (Nat.mul_le_mul_right _ (le_roundEven _ _ _ hQ h2))

/-- A value of the format rounds to itself. -/
theorem roundMagnitude_exact (n d m : Nat) (hd : 0 < d) (hm : m ≤ infMagnitude) (h : n = d * magOfBits m) :
    roundMagnitude n d = m :=
  le_antisymm (roundMagnitude_le n d m hd (le_of_eq h)) (le_roundMagnitude n d m hd hm (le_of_eq h.symm))

/-- A whole multiple within half of a step is at least as near as every other, and as near only at a tie. -/
theorem nearest_multiple (n D g t : Int) (hD : 0 < D) (h1 : 2 * n ≤ (2 * g + 1) * D) (h2 : 2 * g * D ≤ 2 * n + D) :
    |n - g * D| ≤ |n - t * D| ∧
    (|n - g * D| = |n - t * D| → t ≠ g → 2 * n = (2 * g + 1) * D ∨ 2 * g * D = 2 * n + D) := by
  have e1 : (2 * g + 1) * D = 2 * (g * D) + D := by ring
  have e2 : 2 * g * D = 2 * (g * D) := by ring
  rw [e1] at h1 ⊢
  rw [e2] at h2 ⊢
  rcases lt_trichotomy t g with h | h | h
  · have hz : (t + 1) * D ≤ g * D := mul_le_mul_of_nonneg_right (by omega) (le_of_lt hD)
    rw [add_mul, one_mul] at hz
    generalize g * D = G at *
    generalize t * D = T at *
    simp only [abs_eq_max_neg]
    omega
  · subst h
    exact ⟨le_refl _, fun _ h => absurd rfl h⟩
  · have hz : (g + 1) * D ≤ t * D := mul_le_mul_of_nonneg_right (by omega) (le_of_lt hD)
    rw [add_mul, one_mul] at hz
    generalize g * D = G at *
    generalize t * D = T at *
    simp only [abs_eq_max_neg]
    omega

/-- A finite rounding is at least as near the exact value as every value of the format, and even at a tie. -/
theorem roundMagnitude_nearest (n d c : Nat) (hd : 0 < d) (hr : roundMagnitude n d < infMagnitude) :
    |(n : Int) - d * magOfBits (roundMagnitude n d)| ≤ |(n : Int) - d * magOfBits c| ∧
    (|(n : Int) - d * magOfBits (roundMagnitude n d)| = |(n : Int) - d * magOfBits c| →
      magOfBits c ≠ magOfBits (roundMagnitude n d) → roundMagnitude n d % 2 = 0) := by
  have hr0 : roundMagnitude n d = roundShift n d * 2 ^ 52 + roundSig n d := by
    rw [roundMagnitude_eq] at hr ⊢
    omega
  have hQ : 0 < d * 2 ^ roundShift n d := Nat.mul_pos hd (Nat.two_pow_pos _)
  obtain ⟨hn1, hn2, hn3⟩ := roundEven_near n _ hQ
  have hmul := magOfBits_multiple_or_below n d c hd
  have hge := le_roundEven n (d * 2 ^ roundShift n d) (2 ^ 52) hQ
  have hpar : roundMagnitude n d % 2 = roundSig n d % 2 := by rw [hr0]; omega
  rw [hpar, hr0, magOfBits_rounded n d hd]
  change 2 * n ≤ (2 * roundSig n d + 1) * _ at hn1
  change 2 * roundSig n d * _ ≤ 2 * n + _ at hn2
  change (2 * n = (2 * roundSig n d + 1) * _ ∨ 2 * roundSig n d * _ = 2 * n + _) → roundSig n d % 2 = 0 at hn3
  change _ → _ ≤ roundSig n d at hge
  generalize roundSig n d = g at *
  generalize (2 : Nat) ^ roundShift n d = q at *
  have e1 : (d : Int) * ((g * q : Nat) : Int) = (g : Int) * ((d * q : Nat) : Int) := by push_cast; ring
  rw [e1]
  rcases hmul with ⟨t, ht⟩ | ⟨h1, h2⟩
  · have e2 : (d : Int) * (magOfBits c : Int) = (t : Int) * ((d * q : Nat) : Int) := by rw [ht]; push_cast; ring
    rw [e2, ht]
    generalize d * q = D at *
    obtain ⟨k1, k2⟩ := nearest_multiple n D g t (by exact_mod_cast hQ) (by exact_mod_cast hn1) (by exact_mod_cast hn2)
    refine ⟨k1, fun he hne => hn3 ?_⟩
    have hne' : (t : Int) ≠ g := fun h => hne (by rw [Int.ofNat.inj h])
    exact_mod_cast k2 he hne'
  · have h3 := hge h2
    have h4 : (d : Int) * (magOfBits c : Int) < 2 ^ 52 * ((d * q : Nat) : Int) := by
      have : d * magOfBits c < d * (2 ^ 52 * q) := Nat.mul_lt_mul_of_pos_left h1 hd
      have h5 : (d : Int) * magOfBits c < (d : Int) * (2 ^ 52 * q) := by exact_mod_cast this
      calc _ < (d : Int) * (2 ^ 52 * q) := h5
        _ = _ := by push_cast; ring
    have h6 : (2 : Int) ^ 52 * ((d * q : Nat) : Int) ≤ n := by exact_mod_cast h2
    have h7 : (2 : Int) ^ 52 * ((d * q : Nat) : Int) ≤ g * ((d * q : Nat) : Int) := by exact_mod_cast Nat.mul_le_mul_right _ h3
    have key : |(n : Int) - g * ((d * q : Nat) : Int)| < |(n : Int) - d * magOfBits c| := by
      generalize (d : Int) * magOfBits c = C at *
      generalize d * q = D at *
      zify at hn1 hn2 hQ
      rw [abs_of_nonneg (a := (n : Int) - C) (by linarith)]
      rcases Nat.lt_or_eq_of_le h3 with h8 | h8
      · have h9 : ((2 : Int) ^ 52 + 1) * D ≤ g * D := by
          have : (2 : Int) ^ 52 + 1 ≤ g := by exact_mod_cast h8
          exact mul_le_mul_of_nonneg_right this (by positivity)
        rw [abs_lt]; constructor <;> nlinarith
      · have h9 : (g : Int) * D = 2 ^ 52 * D := by rw [← h8]; push_cast; ring
        rw [abs_of_nonneg (by linarith)]; linarith
    exact ⟨le_of_lt key, fun he _ => absurd he (ne_of_lt key)⟩

/-- A rounded magnitude fits bits 62:0. -/
theorem roundMagnitude_lt (n d : Nat) : roundMagnitude n d < 2 ^ 63 :=
  lt_of_le_of_lt (min_le_right _ _) infMagnitude_lt

/-- The value of a rounding, from its sign and its magnitude. -/
theorem unitsOf_roundF64 (neg : Bool) (n d : Nat) :
    unitsOf (roundF64 neg n d) =
      if neg then -(magOfBits (roundMagnitude n d) : Int) else (magOfBits (roundMagnitude n d) : Int) :=
  unitsOf_packSign neg (roundMagnitude_lt n d)

@[simp] theorem signBit_roundF64 (neg : Bool) (n d : Nat) : signBit (roundF64 neg n d) = neg :=
  packSign_signBit neg (roundMagnitude_lt n d)

/-- A rounding is finite exactly when its magnitude is below that of infinity, and is never a NaN. -/
theorem isFinite_roundF64 (neg : Bool) (n d : Nat) :
    isFinite (roundF64 neg n d) = true ↔ roundMagnitude n d < infMagnitude := by
  rw [isFinite_iff, roundF64, packSign_mag neg (roundMagnitude_lt n d)]

theorem isNaN_roundF64 (neg : Bool) (n d : Nat) : isNaN (roundF64 neg n d) = false := by
  rw [← Bool.not_eq_true, isNaN_iff, roundF64, packSign_mag neg (roundMagnitude_lt n d), Nat.not_lt]
  exact min_le_right _ _

/-- Rounding overflows exactly at and above 2^1024 - 2^970. -/
theorem roundMagnitude_overflow (n d : Nat) (hd : 0 < d) :
    roundMagnitude n d = infMagnitude ↔ d * (2 ^ 2098 - 2 ^ 2044) ≤ n := by
  have hQ : 0 < d * 2 ^ roundShift n d := Nat.mul_pos hd (Nat.two_pow_pos _)
  obtain ⟨hn1, hn2, hn3⟩ := roundEven_near n _ hQ
  have hle := roundSig_le n d hd
  have hlt := roundShift_lt n d hd
  have hge := le_of_roundShift_pos n d hd
  have hor := roundShift_zero_or n d hd
  change 2 * n ≤ (2 * roundSig n d + 1) * _ at hn1
  change 2 * roundSig n d * _ ≤ 2 * n + _ at hn2
  change (2 * n = (2 * roundSig n d + 1) * _ ∨ 2 * roundSig n d * _ = 2 * n + _) → roundSig n d % 2 = 0 at hn3
  have hP : d * (2 ^ 2098 - 2 ^ 2044) = (2 ^ 54 - 1) * (d * 2 ^ 2044) := by
    rw [show 2098 = 54 + 2044 from rfl, Nat.pow_add, ← Nat.sub_one_mul]
    exact Nat.mul_left_comm _ _ _
  have hinf : roundMagnitude n d = infMagnitude ↔ infMagnitude ≤ roundShift n d * 2 ^ 52 + roundSig n d := by
    rw [roundMagnitude_eq]; omega
  rw [hinf, hP, infMagnitude]
  rcases lt_trichotomy (roundShift n d) 2045 with h | h | h
  · have h1 : (2 : Nat) ^ roundShift n d ≤ 2 ^ 2044 := Nat.pow_le_pow_right (by decide) (by omega)
    have h2 : d * 2 ^ roundShift n d ≤ d * 2 ^ 2044 := Nat.mul_le_mul_left _ h1
    constructor
    · intro h3; omega
    · intro h3; exfalso
      generalize d * 2 ^ 2044 = P at *
      omega
  · rw [h] at hn1 hn2 hn3 ⊢
    have h1 : d * 2 ^ 2045 = 2 * (d * 2 ^ 2044) := by rw [Nat.pow_succ]; ring
    rw [h1] at hn1 hn2 hn3
    rw [h] at hQ
    rw [h1] at hQ
    generalize d * 2 ^ 2044 = P at *
    generalize roundSig n d = g at *
    constructor
    · intro h3
      have : g = 2 ^ 53 := by omega
      subst this
      omega
    · intro h3
      by_contra hc
      have h4 : g + 1 ≤ 2 ^ 53 := by omega
      have h5 : (2 * g + 1) * (2 * P) ≤ (2 ^ 54 - 1) * (2 * P) := Nat.mul_le_mul_right _ (by omega)
      have h6 : 2 * n = (2 * g + 1) * (2 * P) := le_antisymm hn1 (by omega)
      have h7 := hn3 (.inl h6)
      have h8 : (2 * g + 1) * (2 * P) ≤ (2 ^ 54 - 2) * (2 * P) := Nat.mul_le_mul_right _ (by omega)
      omega
  · have h1 : (2 : Nat) ^ 2046 ≤ 2 ^ roundShift n d := Nat.pow_le_pow_right (by decide) (by omega)
    have h2 : d * 2 ^ 2046 ≤ d * 2 ^ roundShift n d := Nat.mul_le_mul_left _ h1
    have h3 : d * 2 ^ 2046 = 4 * (d * 2 ^ 2044) := by
      rw [show (2 : Nat) ^ 2046 = 2 ^ 2044 * 4 by rw [Nat.pow_succ, Nat.pow_succ]; ring]; ring
    have h4 := hge (by omega)
    constructor
    · intro _
      generalize d * 2 ^ 2044 = P at *
      omega
    · intro _; omega

/-! ## Special values -/

/-- Bits 62:0 of a pattern, as a number. -/
theorem toNat_mod_eq_setWidth (v : F64) : v.toNat % 2 ^ 63 = (v.setWidth 63).toNat := by simp

/-- Inverting the sign changes no other bit. -/
theorem fneg_mag (v : F64) : (fneg v).toNat % 2 ^ 63 = v.toNat % 2 ^ 63 := by
  rw [toNat_mod_eq_setWidth, toNat_mod_eq_setWidth, fneg, BitVec.setWidth_xor]; simp

@[simp] theorem signBit_fneg (v : F64) : signBit (fneg v) = !signBit v := by
  rw [signBit, fneg, BitVec.getLsbD_xor]; simp [signBit]

@[simp] theorem isInf_fneg (v : F64) : isInf (fneg v) = isInf v := by
  rw [Bool.eq_iff_iff, isInf_iff, isInf_iff, fneg_mag]

@[simp] theorem isNaN_fneg (v : F64) : isNaN (fneg v) = isNaN v := by
  rw [Bool.eq_iff_iff, isNaN_iff, isNaN_iff, fneg_mag]

theorem isNaN_of_isInf {v : F64} (h : isInf v = true) : isNaN v = false := by
  simp only [isInf, isNaN, Bool.and_eq_true, beq_iff_eq] at *; simp [h]

theorem magUnits_ne_zero_of_isInf {v : F64} (h : isInf v = true) : magUnits v ≠ 0 := by
  simp only [isInf, Bool.and_eq_true, beq_iff_eq] at h; rw [magUnits, h.1]; simp

theorem unitsOf_eq_zero (v : F64) : unitsOf v = 0 ↔ magUnits v = 0 := by
  rw [unitsOf]; split <;> omega

theorem isInf_packSign (neg : Bool) : isInf (packSign neg infMagnitude) = true := by
  rw [isInf_iff, packSign_mag neg infMagnitude_lt]

/-- What an invalid operation gives is a quiet NaN, whichever pattern is free (R82). -/
theorem isQuietNaN_quietNaN (v : F64) : isQuietNaN (quietNaN v) = true := by
  rw [isQuietNaN, Bool.and_eq_true, isNaN_iff, toNat_mod_eq_setWidth, quietNaN, BitVec.setWidth_or, BitVec.toNat_or,
    BitVec.getLsbD_or]
  exact ⟨lt_of_lt_of_le (by decide) Nat.right_le_or, by simp⟩

theorem isQuietNaN_freeNaN (op : FOp) (a b : F64) : isQuietNaN (freeNaN op a b) = true := isQuietNaN_quietNaN _

end Sys2Proof.Machine
end

