-- ==== Sys2Proof/Laws/Candidates.lean ====
section
/-! SUPPORT. The informative bodies G4 and G5 of 93_implementation_defined.md for `PCore` and `HCore`. The model does
not use them (no rule depends on them); the tests run them against rows PI1 and HI1 of 95_test_vectors.md, which
exercise the binary64 operations on long sequences. -/

namespace Sys2Proof.Laws.Candidates

open Sys2Proof Machine

/-- The first-order denominator term of G4, from `v1 = TFINE/2 - 64000`. -/
def pressureDenominatorG4 (v1 : F64) (a : PressureArgs) : F64 :=
  let slope := fadd (fdiv (fmul (fmul (i2f a.p3) v1) v1) (i2f 524288)) (fmul (i2f a.p2) v1)
  fmul (fadd (i2f 1) (fdiv (fdiv slope (i2f 524288)) (i2f 32768))) (i2f a.p1)

/-- The offset `v2` of G4 before the division by the denominator term. -/
def pressureOffsetG4 (v1 : F64) (a : PressureArgs) : F64 :=
  let quadratic := fdiv (fmul (fmul v1 v1) (i2f a.p6)) (i2f 32768)
  let withLinear := fadd quadratic (fmul (fmul v1 (i2f a.p5)) (i2f 2))
  fadd (fdiv withLinear (i2f 4)) (fmul (i2f a.p4) (i2f 65536))

/-- The pressure of G4 in pascals, once the denominator term `den` is not zero. -/
def pressureValueG4 (v1 den : F64) (a : PressureArgs) : F64 :=
  let scaled := fsub (fsub (i2f 1048576) (i2f a.rawP)) (fdiv (pressureOffsetG4 v1 a) (i2f 4096))
  let p := fdiv (fmul scaled (i2f 6250)) den
  let square := fdiv (fmul (fmul (i2f a.p9) p) p) (i2f 2147483648)
  let linear := fdiv (fmul p (i2f a.p8)) (i2f 32768)
  fadd p (fdiv (fadd (fadd square linear) (i2f a.p7)) (i2f 16))

/-- The body G4 of `PCore`. -/
def pCoreG4 (a : PressureArgs) : PResult :=
  let v1 := fsub (fdiv (i2f a.tfine) (i2f 2)) (i2f 64000)
  let den := pressureDenominatorG4 v1 a
  if feq den 0x0000000000000000 then .zero else .value (pressureValueG4 v1 den a)

/-- The body G5 of `HCore`. -/
def hCoreG5 (a : HumidityArgs) : F64 :=
  let x := fsub (i2f a.tfine) (i2f 76800)
  let offset := fsub (i2f a.rawH) (fadd (fmul (i2f a.h4) (i2f 64)) (fmul (fdiv (i2f a.h5) (i2f 16384)) x))
  let inner := fadd (i2f 1) (fmul (fdiv (i2f a.h3) (i2f 67108864)) x)
  let outer := fadd (i2f 1) (fmul (fmul (fdiv (i2f a.h6) (i2f 67108864)) x) inner)
  let y := fmul offset (fmul (fdiv (i2f a.h2) (i2f 65536)) outer)
  fmul y (fsub (i2f 1) (fdiv (fmul (i2f a.h1) y) (i2f 524288)))

end Sys2Proof.Laws.Candidates
end

