-- ==== Sys2Proof/Laws/Decode.lean ====
section
/-! SUPPORT. Laws of the byte order, the opcode map and the frame lengths. -/

namespace Sys2Proof

@[simp] theorem beBytes_length (n v : Nat) : (beBytes n v).length = n := by
  induction n with
  | zero => rfl
  | succ n ih => simp [beBytes, ih]

@[simp] theorem be64_length (v : F64) : (be64 v).length = 8 := beBytes_length 8 v.toNat

@[simp] theorem coeffs_toList_length (c : Coeffs) : c.toList.length = 18 := rfl

/-- Folding bytes most significant first: the accumulator moves up by one byte for each byte read. -/
theorem foldl_bytes (l : List Byte) (acc : Nat) :
    l.foldl (fun a b => 256 * a + b.toNat) acc =
      acc * 256 ^ l.length + l.foldl (fun a b => 256 * a + b.toNat) 0 := by
  induction l generalizing acc with
  | nil => simp
  | cons b l ih =>
    simp only [List.foldl_cons, List.length_cons]
    rw [ih (256 * acc + b.toNat), ih (256 * 0 + b.toNat)]
    ring

/-- Reading back the `n` bytes of a number gives the number, modulo their range. -/
theorem foldl_beBytes (n v : Nat) :
    (beBytes n v).foldl (fun a b => 256 * a + b.toNat) 0 = v % 256 ^ n := by
  induction n with
  | zero => simp [beBytes, Nat.mod_one]
  | succ n ih =>
    rw [beBytes, List.foldl_cons, foldl_bytes, beBytes_length, ih]
    have h : v % (256 ^ n * 256) = v % 256 ^ n + 256 ^ n * (v / 256 ^ n % 256) := Nat.mod_mul
    rw [Nat.pow_succ, h, BitVec.toNat_ofNat, Nat.mul_zero, Nat.zero_add, Nat.add_comm, Nat.mul_comm]

/-- `MemRead` of the bytes of a number standing after `pre` bytes. -/
theorem memRead_beBytes (pre rest : List Byte) (n v : Nat) :
    memRead (pre ++ (beBytes n v ++ rest)) pre.length n = v % 256 ^ n := by
  have h : ((beBytes n v ++ rest).take n) = beBytes n v := by
    rw [List.take_append_of_le_length (by simp), List.take_of_length_le (by simp)]
  rw [memRead, List.drop_left, h, foldl_beBytes]

/-- The opcode map names no byte twice. -/
theorem opTable_codes_nodup : (opTable.map OpRow.code).Nodup := by decide

/-- The opcode map has a row for each of the thirteen operations. -/
theorem opTable_has_every_op (o : Op) : ∃ r ∈ opTable, r.op = o := by cases o <;> decide

/-- 243 byte values are reserved (R51). -/
theorem reserved_count : ((List.range 256).filter fun n => (opRow (BitVec.ofNat 8 n)).isNone).length = 243 := by
  decide +kernel

/-- The decoder, once the opcode's row is known. -/
theorem decodeFor_cons {maxBuf : Option Nat} {code : Byte} {payload : List Byte} {row : OpRow}
    (h : opRow code = some row) :
    decodeFor maxBuf (code :: payload) =
      if row.format.fits maxBuf payload.length then .instr (row.op.assemble payload)
      else .reject (.badLength code (payload.length + 1)) := by
  simp [decodeFor, h]

end Sys2Proof
end

