-- ==== Sys2Proof/Laws/State.lean ====
section
/-! SUPPORT. One lemma for each field of State under each update of Machine/Ops.lean. -/

namespace Sys2Proof.Machine

variable (s : State)

/-! ## respond -/

@[simp] theorem respond_arch (st : Status) (b : List Byte) : (s.respond st b).arch = s.arch := rfl
@[simp] theorem respond_work (st : Status) (b : List Byte) : (s.respond st b).work = s.work := rfl
@[simp] theorem respond_incoming (st : Status) (b : List Byte) : (s.respond st b).incoming = s.incoming := rfl
@[simp] theorem respond_draw (st : Status) (b : List Byte) : (s.respond st b).draw = s.draw := rfl
@[simp] theorem respond_response (st : Status) (b : List Byte) :
    (s.respond st b).response = some (st.code :: b) := rfl

/-! ## raise, rejectFrame -/

@[simp] theorem raise_arch (e : Err) : (s.raise e).arch = s.arch := rfl
@[simp] theorem raise_work (e : Err) : (s.raise e).work = s.work := rfl
@[simp] theorem raise_incoming (e : Err) : (s.raise e).incoming = s.incoming := rfl
@[simp] theorem raise_draw (e : Err) : (s.raise e).draw = s.draw := rfl
@[simp] theorem raise_response (e : Err) : (s.raise e).response = some [e.status.code] := rfl

@[simp] theorem rejectFrame_eq (e : DecodeError) : s.rejectFrame e = s.raise (decodeErr e) := rfl

/-! ## take -/

@[simp] theorem take_arch (r : List HostEvent) : (s.take r).arch = s.arch := rfl
@[simp] theorem take_work (r : List HostEvent) : (s.take r).work = s.work := rfl
@[simp] theorem take_incoming (r : List HostEvent) : (s.take r).incoming = r := rfl
@[simp] theorem take_draw (r : List HostEvent) : (s.take r).draw = s.draw := rfl
@[simp] theorem take_response (r : List HostEvent) : (s.take r).response = s.response := rfl

/-! ## loadCal -/

@[simp] theorem loadCal_cal (c : Coeffs) : (s.loadCal c).arch.cal = c := rfl
@[simp] theorem loadCal_calValid (c : Coeffs) : (s.loadCal c).arch.calValid = true := rfl
@[simp] theorem loadCal_alt (c : Coeffs) : (s.loadCal c).arch.alt = s.arch.alt := rfl
@[simp] theorem loadCal_temp (c : Coeffs) : (s.loadCal c).arch.temp = s.arch.temp := rfl
@[simp] theorem loadCal_press (c : Coeffs) : (s.loadCal c).arch.press = s.arch.press := rfl
@[simp] theorem loadCal_hum (c : Coeffs) : (s.loadCal c).arch.hum = s.arch.hum := rfl
@[simp] theorem loadCal_valid (c : Coeffs) : (s.loadCal c).arch.valid = s.arch.valid := rfl
@[simp] theorem loadCal_work (c : Coeffs) : (s.loadCal c).work = s.work := rfl
@[simp] theorem loadCal_incoming (c : Coeffs) : (s.loadCal c).incoming = s.incoming := rfl
@[simp] theorem loadCal_draw (c : Coeffs) : (s.loadCal c).draw = s.draw := rfl

/-! ## setAlt -/

@[simp] theorem setAlt_cal (v : F64) : (s.setAlt v).arch.cal = s.arch.cal := rfl
@[simp] theorem setAlt_calValid (v : F64) : (s.setAlt v).arch.calValid = s.arch.calValid := rfl
@[simp] theorem setAlt_alt (v : F64) : (s.setAlt v).arch.alt = v := rfl
@[simp] theorem setAlt_temp (v : F64) : (s.setAlt v).arch.temp = s.arch.temp := rfl
@[simp] theorem setAlt_press (v : F64) : (s.setAlt v).arch.press = s.arch.press := rfl
@[simp] theorem setAlt_hum (v : F64) : (s.setAlt v).arch.hum = s.arch.hum := rfl
@[simp] theorem setAlt_valid (v : F64) : (s.setAlt v).arch.valid = s.arch.valid := rfl
@[simp] theorem setAlt_work (v : F64) : (s.setAlt v).work = s.work := rfl
@[simp] theorem setAlt_incoming (v : F64) : (s.setAlt v).incoming = s.incoming := rfl
@[simp] theorem setAlt_draw (v : F64) : (s.setAlt v).draw = s.draw := rfl

/-! ## unpackRaw, setTfine, setWork -/

@[simp] theorem unpackRaw_arch (p t : BitVec 24) (h : BitVec 16) : (s.unpackRaw p t h).arch = s.arch := rfl
@[simp] theorem unpackRaw_rawP (p t : BitVec 24) (h : BitVec 16) : (s.unpackRaw p t h).work.rawP = top20 p := rfl
@[simp] theorem unpackRaw_rawT (p t : BitVec 24) (h : BitVec 16) : (s.unpackRaw p t h).work.rawT = top20 t := rfl
@[simp] theorem unpackRaw_rawH (p t : BitVec 24) (h : BitVec 16) : (s.unpackRaw p t h).work.rawH = h := rfl
@[simp] theorem unpackRaw_tfine (p t : BitVec 24) (h : BitVec 16) :
    (s.unpackRaw p t h).work.tfine = s.work.tfine := rfl
@[simp] theorem unpackRaw_crcReg (p t : BitVec 24) (h : BitVec 16) :
    (s.unpackRaw p t h).work.crcReg = s.work.crcReg := rfl
@[simp] theorem unpackRaw_gidx (p t : BitVec 24) (h : BitVec 16) :
    (s.unpackRaw p t h).work.gidx = s.work.gidx := rfl
@[simp] theorem unpackRaw_okf (p t : BitVec 24) (h : BitVec 16) :
    (s.unpackRaw p t h).work.okf = s.work.okf := rfl
@[simp] theorem unpackRaw_incoming (p t : BitVec 24) (h : BitVec 16) :
    (s.unpackRaw p t h).incoming = s.incoming := rfl
@[simp] theorem unpackRaw_draw (p t : BitVec 24) (h : BitVec 16) : (s.unpackRaw p t h).draw = s.draw := rfl

@[simp] theorem setTfine_arch (n : Int) : (s.setTfine n).arch = s.arch := rfl
@[simp] theorem setTfine_rawP (n : Int) : (s.setTfine n).work.rawP = s.work.rawP := rfl
@[simp] theorem setTfine_rawT (n : Int) : (s.setTfine n).work.rawT = s.work.rawT := rfl
@[simp] theorem setTfine_rawH (n : Int) : (s.setTfine n).work.rawH = s.work.rawH := rfl
@[simp] theorem setTfine_tfine (n : Int) : (s.setTfine n).work.tfine = BitVec.ofInt 32 n := rfl
@[simp] theorem setTfine_crcReg (n : Int) : (s.setTfine n).work.crcReg = s.work.crcReg := rfl
@[simp] theorem setTfine_gidx (n : Int) : (s.setTfine n).work.gidx = s.work.gidx := rfl
@[simp] theorem setTfine_okf (n : Int) : (s.setTfine n).work.okf = s.work.okf := rfl
@[simp] theorem setTfine_incoming (n : Int) : (s.setTfine n).incoming = s.incoming := rfl
@[simp] theorem setTfine_draw (n : Int) : (s.setTfine n).draw = s.draw := rfl

@[simp] theorem setWork_arch (w : Work) : (s.setWork w).arch = s.arch := rfl
@[simp] theorem setWork_work (w : Work) : (s.setWork w).work = w := rfl
@[simp] theorem setWork_incoming (w : Work) : (s.setWork w).incoming = s.incoming := rfl
@[simp] theorem setWork_draw (w : Work) : (s.setWork w).draw = s.draw := rfl

/-! ## storeReading -/

@[simp] theorem storeReading_cal (a b c : F64) : (s.storeReading a b c).arch.cal = s.arch.cal := rfl
@[simp] theorem storeReading_calValid (a b c : F64) : (s.storeReading a b c).arch.calValid = s.arch.calValid := rfl
@[simp] theorem storeReading_alt (a b c : F64) : (s.storeReading a b c).arch.alt = s.arch.alt := rfl
@[simp] theorem storeReading_temp (a b c : F64) : (s.storeReading a b c).arch.temp = a := rfl
@[simp] theorem storeReading_press (a b c : F64) : (s.storeReading a b c).arch.press = b := rfl
@[simp] theorem storeReading_hum (a b c : F64) : (s.storeReading a b c).arch.hum = c := rfl
@[simp] theorem storeReading_valid (a b c : F64) : (s.storeReading a b c).arch.valid = true := rfl
@[simp] theorem storeReading_work (a b c : F64) : (s.storeReading a b c).work = s.work := rfl
@[simp] theorem storeReading_incoming (a b c : F64) : (s.storeReading a b c).incoming = s.incoming := rfl
@[simp] theorem storeReading_draw (a b c : F64) : (s.storeReading a b c).draw = s.draw := rfl

/-! ## reset -/

@[simp] theorem atReset_calValid (d : Nat) (r : List HostEvent) : (State.atReset d r).arch.calValid = false := rfl
@[simp] theorem atReset_valid (d : Nat) (r : List HostEvent) : (State.atReset d r).arch.valid = false := rfl
@[simp] theorem atReset_alt (d : Nat) (r : List HostEvent) : (State.atReset d r).arch.alt = Config.altReset := rfl
@[simp] theorem atReset_incoming (d : Nat) (r : List HostEvent) : (State.atReset d r).incoming = r := rfl
@[simp] theorem atReset_response (d : Nat) (r : List HostEvent) : (State.atReset d r).response = none := rfl
@[simp] theorem atReset_draw (d : Nat) (r : List HostEvent) : (State.atReset d r).draw = d + 1 := rfl
@[simp] theorem externalReset_eq (r : List HostEvent) : s.externalReset r = State.atReset s.draw r := rfl

end Sys2Proof.Machine
end

