-- ==== Sys2Proof/Laws/Ops.lean ====
section
/-! SUPPORT. What each shared operation and each step can do, said once. -/

namespace Sys2Proof.Machine

/-- What an RD operation built on `withReading` answers: it changes the response alone. -/
theorem withReading_eq (s : State) (answer : Arch → Status × List Byte) :
    s.withReading answer =
      .next (if s.arch.valid then s.respond (answer s.arch).1 (answer s.arch).2 else s.respond .unavail []) := by
  cases h : s.arch.valid <;> simp [State.withReading, State.hasReading, h]

/-- `withReading` in a state that holds a reading. -/
theorem withReading_valid {s : State} (h : s.arch.valid = true) (answer : Arch → Status × List Byte) :
    s.withReading answer = .next (s.respond (answer s.arch).1 (answer s.arch).2) := by
  simp [withReading_eq, h]

/-- `withReading` in a state that holds none. -/
theorem withReading_invalid {s : State} (h : s.arch.valid = false) (answer : Arch → Status × List Byte) :
    s.withReading answer = .next (s.respond .unavail []) := by
  simp [withReading_eq, h]

/-- The loop of CRC.VERIFY leaves the working registers of the COMP block alone. -/
theorem checkGroups_frame (buf : List Byte) (w : Work) :
    (checkGroups buf w).rawT = w.rawT ∧ (checkGroups buf w).rawP = w.rawP ∧
    (checkGroups buf w).rawH = w.rawH ∧ (checkGroups buf w).tfine = w.tfine := by
  fun_induction checkGroups buf w with
  | case1 d0 d1 c rest w ih => simpa [checkGroup] using ih
  | case2 w buf h => simp

/-- The loop counts its groups. -/
theorem checkGroups_gidx (buf : List Byte) (w : Work) :
    (checkGroups buf w).gidx = w.gidx + buf.length / 3 := by
  fun_induction checkGroups buf w with
  | case1 d0 d1 c rest w ih =>
    rw [ih]
    simp only [checkGroup, List.length_cons]
    omega
  | case2 buf w h =>
    match buf, h with
    | [], _ => simp
    | [_], _ => simp
    | [_, _], _ => simp
    | a :: b :: c :: r, h => exact absurd rfl (h a b c r)

/-- Whether every whole group of a buffer passes: the loop's verdict without the loop's registers. -/
def groupsOk : List Byte → Bool
  | d0 :: d1 :: c :: rest => groupOk d0 d1 c && groupsOk rest
  | _ => true

/-- The verdict of the loop depends on the buffer and on the verdict so far, and on nothing else. -/
theorem checkGroups_okf (buf : List Byte) (w : Work) :
    (checkGroups buf w).okf = (w.okf && groupsOk buf) := by
  fun_induction checkGroups buf w with
  | case1 d0 d1 c rest w ih => rw [ih]; simp [checkGroup, groupsOk, Bool.and_assoc]
  | case2 buf w h => simp [groupsOk]

/-- Every operation ends in a next state (R165): no meaning faults or refuses. -/
theorem exec_next (i : Instr) (s : State) : ∃ t, exec i s = .next t := by
  cases i <;>
    simp only [exec, execCrcCompute, execCrcVerify, execCalLoad, execAltSet, execConvert, execRdT, execRdP,
      execRdPn, execRdH, execRdValid, execRdDew, execRdRho, execRdSlp, State.readOut, withReading_eq] <;>
    (try split) <;> exact ⟨_, rfl⟩

/-- What a step can do, by what the host sends next. -/
theorem step_cases (s : State) :
    (s.incoming = [] ∧ step s = .next s) ∨
    (∃ rest, s.incoming = .reset :: rest ∧ step s = .next (State.atReset s.draw rest)) ∨
    (∃ req rest i, s.incoming = .request req :: rest ∧ decode req = .instr i ∧ step s = exec i (s.take rest)) ∨
    (∃ req rest e, s.incoming = .request req :: rest ∧ decode req = .reject e ∧
      step s = .next ((s.take rest).raise (decodeErr e))) := by
  match h : s.incoming with
  | [] => exact .inl ⟨rfl, by simp [step, h]⟩
  | .reset :: rest => exact .inr (.inl ⟨rest, rfl, by simp [step, h]⟩)
  | .request req :: rest =>
    match hd : decode req with
    | .instr i => exact .inr (.inr (.inl ⟨req, rest, i, rfl, hd, by simp [step, h, hd]⟩))
    | .reject e => exact .inr (.inr (.inr ⟨req, rest, e, rfl, hd, by simp [step, h, hd]⟩))

end Sys2Proof.Machine
end

