-- ==== Sys2Proof/Laws/PerInstr.lean ====
section
/-! SUPPORT. The family EncodeFits: the frame of an operation has the opcode and the length of its row. -/

namespace Sys2Proof.Laws.EncodeFits

/-- The first byte of the frame has a row in the opcode map, and the payload fits that row's format exactly when
the operation is well-formed. -/
def Statement (i : Instr) : Prop :=
  ∀ maxBuf, ∃ code payload row, encode i = code :: payload ∧ opRow code = some row ∧
    row.format.fits maxBuf payload.length = i.wellFormedFor maxBuf

theorem crcCompute (b0 b1 : Byte) : Statement (.crcCompute b0 b1) := fun _ => ⟨_, _, _, rfl, rfl, rfl⟩
theorem crcVerify (buf : List Byte) : Statement (.crcVerify buf) := fun _ => ⟨_, _, _, rfl, rfl, rfl⟩
theorem calLoad (c : Coeffs) : Statement (.calLoad c) := fun _ => ⟨_, _, _, rfl, rfl, rfl⟩
theorem altSet (v : F64) : Statement (.altSet v) := fun _ => ⟨_, _, _, rfl, rfl, rfl⟩
theorem convert (p t : BitVec 24) (h : BitVec 16) : Statement (.convert p t h) := fun _ => ⟨_, _, _, rfl, rfl, rfl⟩
theorem rdT : Statement .rdT := fun _ => ⟨_, _, _, rfl, rfl, rfl⟩
theorem rdP : Statement .rdP := fun _ => ⟨_, _, _, rfl, rfl, rfl⟩
theorem rdPn : Statement .rdPn := fun _ => ⟨_, _, _, rfl, rfl, rfl⟩
theorem rdH : Statement .rdH := fun _ => ⟨_, _, _, rfl, rfl, rfl⟩
theorem rdValid : Statement .rdValid := fun _ => ⟨_, _, _, rfl, rfl, rfl⟩
theorem rdDew : Statement .rdDew := fun _ => ⟨_, _, _, rfl, rfl, rfl⟩
theorem rdRho : Statement .rdRho := fun _ => ⟨_, _, _, rfl, rfl, rfl⟩
theorem rdSlp : Statement .rdSlp := fun _ => ⟨_, _, _, rfl, rfl, rfl⟩

end Sys2Proof.Laws.EncodeFits
end

