-- ==== Sys2Proof/Tests/Slice0.lean ====
section
/-! SUPPORT. Tests on the spec's own vectors (95_test_vectors.md), the smoke test of WellFormed, decode tests on frames
written out from the encoding tables, and a witness for the hypotheses of each statement. -/

namespace Sys2Proof.Tests

open Sys2Proof Machine

/-! The tests are checked one after another: checked side by side they hold the stacks of some forty threads at once. -/
set_option Elab.async false

/-! ## Helpers -/

/-- The calibration fixture F of 95_test_vectors.md section 4. -/
def fixtureF : Coeffs :=
  { t1 := 0x6B70, t2 := 0x6743, t3 := 0xFC18, p1 := 0x8E7D, p2 := 0xD643, p3 := 0x0BD0, p4 := 0x0B27
    p5 := 0x008C, p6 := 0xFFF9, p7 := 0x3C8C, p8 := 0xC6F8, p9 := 0x1770, h1 := 0x004B, h2 := 0x016F
    h3 := 0x0000, h4 := 0x012D, h5 := 0x0032, h6 := 0x001E }

/-- The fixture F0: F with `P1 = 0`. -/
def fixtureF0 : Coeffs := { fixtureF with p1 := 0x0000 }

/-- A small state: a calibration, ALT = 120.0, the reading of program P2, and the events to come. -/
def demo (cal : Coeffs) (calValid valid : Bool) (hum : F64) (incoming : List HostEvent) : State :=
  { arch :=
      { cal := cal, calValid := calValid, alt := 0x405E000000000000, temp := 0x4039151D460F8000
        press := 0x40DD4C0000000000, hum := hum, valid := valid }
    work := { rawT := 0, rawP := 0, rawH := 0, tfine := 0, crcReg := 0, gidx := 0, okf := false }
    incoming := incoming
    response := none
    draw := 0 }

/-- `demo` with calibration F0 and a reading of 100 percent. -/
def ready (incoming : List HostEvent) : State := demo fixtureF0 true true 0x4059000000000000 incoming

/-- The next state of an outcome. -/
def after (o : Host.Outcome State Fault Refusal) : Option State :=
  match o with
  | .next t => some t
  | .fault _ => none
  | .refused _ => none

/-- The response after an outcome. -/
def answer (o : Host.Outcome State Fault Refusal) : Option Frame := (after o).bind State.response

/-- The response to one request frame. -/
def answerTo (s : State) (req : Frame) : Option Frame := answer (step { s with incoming := [.request req] })

/-! ## WellFormed refuses what it should -/

/-- R53: a buffer one byte longer than a numeric MAXBUF is refused, one of MAXBUF bytes is not. -/
theorem test_wellFormed_maxBuf :
    Instr.wellFormedFor (some 2) (.crcVerify [1, 2, 3]) = false ∧
    Instr.wellFormedFor (some 3) (.crcVerify [1, 2, 3]) = true ∧
    decodeFor (some 2) [0x02, 1, 2, 3] = .reject (.badLength 0x02 4) := by decide

/-! ## Decoding of frames written out from R46 and R50 -/

theorem test_decode_crcCompute : decode [0x01, 0xBE, 0xEF] = .instr (.crcCompute 0xBE 0xEF) := by decide
theorem test_decode_crcVerify : decode [0x02, 0xBE, 0xEF, 0x92] = .instr (.crcVerify [0xBE, 0xEF, 0x92]) := by decide

/-- Row L1 of section 4, the frame of R86's example. -/
theorem test_decode_calLoad :
    decode [0x10, 0x6B, 0x70, 0x67, 0x43, 0xFC, 0x18, 0x8E, 0x7D, 0xD6, 0x43, 0x0B, 0xD0, 0x0B, 0x27, 0x00, 0x8C,
      0xFF, 0xF9, 0x3C, 0x8C, 0xC6, 0xF8, 0x17, 0x70, 0x00, 0x4B, 0x01, 0x6F, 0x00, 0x00, 0x01, 0x2D, 0x00, 0x32,
      0x00, 0x1E] = .instr (.calLoad fixtureF) := by decide +kernel

/-- Row A1 of section 4. -/
theorem test_decode_altSet :
    decode [0x11, 0x40, 0x5E, 0, 0, 0, 0, 0, 0] = .instr (.altSet 0x405E000000000000) := by decide +kernel

/-- Row C2 of section 5: the dropped bits are in the fields. -/
theorem test_decode_convert :
    decode [0x20, 0x65, 0x5A, 0xCF, 0x7E, 0xED, 0x0A, 0x75, 0x30] =
      .instr (.convert 0x655ACF 0x7EED0A 0x7530) := by decide +kernel

theorem test_decode_reads :
    [0x30, 0x31, 0x32, 0x33, 0x34, 0x38, 0x39, 0x3A].map (fun c => decode [c]) =
      [.rdT, .rdP, .rdPn, .rdH, .rdValid, .rdDew, .rdRho, .rdSlp].map Decoded.instr := by decide

/-- The frame of R89's example, from its pseudo-operation. -/
theorem test_convertRaw : encode (PseudoOp.convertRaw 415148 519888 30000).expand =
    [0x20, 0x65, 0x5A, 0xC0, 0x7E, 0xED, 0x00, 0x75, 0x30] := by decide +kernel

/-- Rows DV1 to DV15 and DV24 of section 3. -/
theorem test_decode_rejects :
    decode [] = .reject .emptyFrame ∧ decode [0x00] = .reject (.reservedOpcode 0x00) ∧
    decode [0xFF] = .reject (.reservedOpcode 0xFF) ∧ decode [0x0F, 1, 2] = .reject (.reservedOpcode 0x0F) ∧
    decode [0x37] = .reject (.reservedOpcode 0x37) ∧ decode [0x01] = .reject (.badLength 0x01 1) ∧
    decode [0x11, 0x40, 0x5E, 0, 0, 0, 0, 0] = .reject (.badLength 0x11 8) ∧
    decode [0x30, 0x00] = .reject (.badLength 0x30 2) := by decide

/-- The host's two functions on words numbered as the table numbers them. -/
theorem test_tableWord :
    decodeTableWord 8 0x20 = some (.convert 0 0 0) ∧ decodeTableWord 24 0xEFBE01 = some (.crcCompute 0xBE 0xEF) ∧
    decodeTableWord 8 0x03 = none := by decide +kernel

theorem test_withFetchWord : step (State.reset.withFetchWord 8 0x34) = exec .rdValid State.reset := rfl

/-! ## The CRC block (section 2) -/

/-- Rows X1 and X5. -/
theorem test_crcCompute : answer (exec (.crcCompute 0xBE 0xEF) (ready [])) = some [0x00, 0x92] ∧
    answer (exec (.crcCompute 0x00 0xFF) (ready [])) = some [0x00, 0x2D] := by decide +kernel

/-- Rows V7 and V8: the middle group's byte decides. -/
theorem test_crcVerify :
    answer (exec (.crcVerify [0xBE, 0xEF, 0x92, 0x00, 0x00, 0x81, 0xFF, 0xFF, 0xAC]) (ready [])) = some [0x00, 0x01] ∧
    answer (exec (.crcVerify [0xBE, 0xEF, 0x92, 0x00, 0x00, 0x80, 0xFF, 0xFF, 0xAC]) (ready [])) = some [0x00, 0x00] := by
  decide +kernel

/-! ## The COMP block -/

/-- Rows L1 and L2. -/
theorem test_calLoad :
    answer (exec (.calLoad fixtureF) (demo fixtureF0 false false 0 [])) = some [0x00] ∧
    answer (exec (.calLoad fixtureF) (ready [])) = some [0x83] := by decide +kernel

/-- Row A3: -0.0 is stored as sent. -/
theorem test_altSet :
    (after (exec (.altSet 0x8000000000000000) (ready []))).map (fun t => t.arch.alt) = some 0x8000000000000000 := by
  decide +kernel

/-- Program P2 step 7: rows T1 and PS1. -/
theorem test_convert :
    (after (exec (.convert 0x655AC0 0x7EED00 0x7530) (demo fixtureF0 true false 0 []))).map
      (fun t => (t.work.tfine, t.arch.temp, t.arch.press, t.arch.valid)) =
    some (128422, 0x4039151D460F8000, 0x40DD4C0000000000, true) := by decide +kernel

/-- Row C4 with F0: a negative sum is floored. -/
theorem test_convert_floor :
    (after (exec (.convert 0x655AC0 0x61A800 0x7530) (demo fixtureF0 true false 0 []))).map
      (fun t => (t.work.tfine.toInt, t.arch.temp)) = some (-64736, 0xC0294986D2400000) := by decide +kernel

/-- Row T8: a sum of -0.0 gives TFINE 0 and TEMP -0.0. -/
theorem test_temperature_negative_zero :
    tempSum 0x6B700 27504 (-26435) (-50) = 0x8000000000000000 ∧ floorInt 0x8000000000000000 = 0 ∧
    clampedTemp 0x8000000000000000 = 0x8000000000000000 := by decide +kernel

/-- Row T12: the sum of the largest magnitude, rounded. -/
theorem test_temperature_largest_sum :
    tempSum 0xFFFFF 0 (-32768) (-32768) = 0xC14FFFFD00001000 ∧ floorInt 0xC14FFFFD00001000 = -4194299 := by
  decide +kernel

/-- Rows K6, K12, K13 and K15 of section 6. -/
theorem test_clamp :
    clamp 0x4055400000000001 0xC044000000000000 0x4055400000000000 = 0x4055400000000000 ∧
    clamp 0x8000000000000001 0 0x4059000000000000 = 0 ∧
    clamp 0x8000000000000000 0 0x4059000000000000 = 0x8000000000000000 ∧
    clamp 0x7FF0000000000000 0x40DD4C0000000000 0x40FADB0000000000 = 0x40FADB0000000000 := by decide +kernel

/-- Row RD1. -/
theorem test_rdT : answerTo (ready []) [0x30] = some [0x00, 0x40, 0x39, 0x15, 0x1D, 0x46, 0x0F, 0x80, 0x00] := by
  decide +kernel

/-- Row RD5. -/
theorem test_rdP : answerTo (ready []) [0x31] = some [0x00, 0x40, 0x72, 0xC0, 0, 0, 0, 0, 0] := by decide +kernel

/-- Row RD7: a quotient that rounds. -/
theorem test_pressureHPa : pressureHPa 0x40F892D4215C750E = 0x408F7442BA0FF1FD := by decide +kernel

/-- Row RD4. -/
theorem test_rdPn : answerTo (ready []) [0x32] = some [0x00, 0x40, 0xDD, 0x4C, 0, 0, 0, 0, 0] := by decide +kernel

/-- Row RD9. -/
theorem test_rdH : answerTo (ready []) [0x33] = some [0x00, 0x40, 0x59, 0, 0, 0, 0, 0, 0] := by decide +kernel

/-- Rows DV22 and DV23. -/
theorem test_rdValid :
    answerTo (ready []) [0x34] = some [0x00, 0x01] ∧
    answerTo (demo fixtureF false false 0 []) [0x34] = some [0x00, 0x00] := by decide +kernel

/-- Rows DV26 and W12: ST_UNAVAIL comes before ST_UNDEF, and -0.0 is not above zero. -/
theorem test_rdDew :
    answerTo (demo fixtureF true false 0 []) [0x38] = some [0x01] ∧
    (answerTo (demo fixtureF true true 0x8000000000000000 []) [0x38]).map List.head? = some (some 0x02) := by
  decide +kernel

/-- The inside of R118 on row W2, with the logarithm 2.0 that row assumes. -/
theorem test_dew_formula_W2 :
    magnusRatio 0x4039151D460F8000 = 0x3FFA5D87926926F9 ∧
    fdiv (fmul 0x406E63D70A3D70A4 0x3FFA5D87926926F9) (fsub 0x40319EB851EB851F 0x3FFA5D87926926F9) =
      0x4039151D460F8000 := by decide +kernel

/-- Row DV21: RD.RHO and RD.SLP before a reading. -/
theorem test_rdRho : answerTo (demo fixtureF true false 0 []) [0x39] = some [0x01] := by decide +kernel
theorem test_rdSlp : answerTo (demo fixtureF true false 0 []) [0x3A] = some [0x01] := by decide +kernel

/-- Row RD15: RD.SLP passes ALT on. -/
theorem test_rdSlp_alt : exec .rdSlp (ready []) =
    .next (answered (ready []) (0x00 :: be64 (slp 0x4039151D460F8000 0x40DD4C0000000000 0x4059000000000000
      0x405E000000000000))) := rfl

/-- Rows DV16 and DV17: the length is checked before the calibration. -/
theorem test_convert_errors :
    answerTo (demo fixtureF false false 0 []) [0x20, 0x65, 0x5A, 0xC0, 0x7E, 0xED, 0x00, 0x75] = some [0x81] ∧
    answerTo (demo fixtureF false false 0 []) [0x20, 0x65, 0x5A, 0xC0, 0x7E, 0xED, 0x00, 0x75, 0x30] = some [0x82] := by
  decide +kernel

/-- Rows PI1 and HI1 of section 7: the informative bodies G4 and G5 on fixture F. -/
theorem test_candidate_bodies :
    Laws.Candidates.pCoreG4 (pressureArgs 128422 415148 fixtureF) = .value 0x40F892D4215C750E ∧
    Laws.Candidates.hCoreG5 (humidityArgs 128422 30000 fixtureF) = 0x404E0A55A623F3BC := by decide +kernel

/-- Row PI2: property P-3 on body G4: the denominator term is a zero with F0. -/
theorem test_candidate_zero :
    Laws.Candidates.pCoreG4 (pressureArgs 128422 415148 fixtureF0) = .zero := by decide +kernel

/-! ## Arithmetic at its edges, from the format's definition -/

/-- 1 + 2^-53 is a tie and goes to the even 1; the least bit above it does not. -/
theorem test_fadd_tie :
    fadd 0x3FF0000000000000 0x3CA0000000000000 = 0x3FF0000000000000 ∧
    fadd 0x3FF0000000000000 0x3CA0000000000001 = 0x3FF0000000000001 := by decide +kernel

/-- The greatest finite value plus half of its last place overflows. -/
theorem test_fadd_overflow : fadd 0x7FEFFFFFFFFFFFFF 0x7C90000000000000 = 0x7FF0000000000000 := by decide +kernel

/-- The product of the two least subnormals underflows to a zero with the product's sign. -/
theorem test_fmul_underflow : fmul 0x8000000000000001 0x0000000000000001 = 0x8000000000000000 := by decide +kernel

/-- A non-zero number divided by -0.0. -/
theorem test_fdiv_by_zero : fdiv 0x3FF0000000000000 0x8000000000000000 = 0xFFF0000000000000 := by decide +kernel

/-! ## Witnesses: the hypotheses of the statements can be met -/

/-- A request of an RD operation in a state with a reading. -/
theorem witness_request : ∃ s req rest i t, s.incoming = .request req :: rest ∧ decode req = .instr i ∧
    step s = .next t := ⟨ready [.request [0x34]], _, _, .rdValid, _, rfl, rfl, rfl⟩

theorem witness_EveryStepKeepsReadingInvariant : ∃ s t, StateInv s ∧ s.arch.valid = true ∧ step s = .next t :=
  ⟨ready [.request [0x34]], _,
    ⟨fun _ => rfl, fun _ => by decide +kernel, fun _ => by decide +kernel, fun _ => by decide +kernel,
      fun r h => by simp [ready, demo] at h⟩, rfl, rfl⟩

theorem witness_RequestStepExecutesDecodedOperation :
    ∃ (s : State) (req : Frame) (rest : List HostEvent) (i : Instr),
      s.incoming = .request req :: rest ∧ decode req = .instr i :=
  ⟨ready [.request [0x01, 0xBE, 0xEF]], _, _, .crcCompute 0xBE 0xEF, rfl, by decide⟩

theorem witness_IdleAndResetSteps :
    (∃ s : State, s.incoming = []) ∧ (∃ (s : State) (rest : List HostEvent), s.incoming = .reset :: rest) :=
  ⟨⟨ready [], rfl⟩, ⟨ready [.reset], [], rfl⟩⟩

theorem witness_EveryRequestIsAnswered : ∃ (s : State) (req : Frame) (rest : List HostEvent),
    s.incoming = .request req :: rest := ⟨ready [.request []], _, _, rfl⟩

theorem witness_WorkingRegistersAreUnobservable : ∃ s₁ s₂, AgreeButWork s₁ s₂ ∧ s₁.work ≠ s₂.work :=
  ⟨ready [], (ready []).setTfine 1, ⟨rfl, rfl, rfl⟩, by decide +kernel⟩

theorem witness_OperationsWriteOnlyTheirRegisters : ∃ i s t, exec i s = .next t ∧ (∀ c, i ≠ .calLoad c) ∧
    (∀ v, i ≠ .altSet v) ∧ (∀ p q h, i ≠ .convert p q h) ∧ (∀ b0 b1, i ≠ .crcCompute b0 b1) ∧
    (∀ buf, i ≠ .crcVerify buf) :=
  ⟨.rdT, ready [], _, rfl, by simp, by simp, by simp, by simp, by simp⟩

theorem witness_OperationsButCalLoadAreIdempotent :
    (∃ i s t, (∀ c, i ≠ .calLoad c) ∧ exec i s = .next t) ∧ (∃ c s t, exec (.calLoad c) s = .next t) :=
  ⟨⟨.rdValid, ready [], _, by simp, rfl⟩, ⟨fixtureF, ready [], _, rfl⟩⟩

theorem witness_DecodeOfEncodeIsIdentity :
    ∃ maxBuf buf, maxBuf ≠ none ∧ Instr.wellFormedFor maxBuf (.crcVerify buf) = true :=
  ⟨some 3, [0xBE, 0xEF, 0x92], by decide⟩

theorem witness_EncodeOfDecodeIsIdentity : ∃ maxBuf req i, maxBuf ≠ none ∧ decodeFor maxBuf req = .instr i :=
  ⟨some 0, [0x02], .crcVerify [], by decide⟩

/-- One code and length for each clause, at the ends of the ranges. -/
theorem witness_DecoderChecksInOrder :
    (reservedOpcode 0x3B = true ∧ reservedOpcode 0x3A = false) ∧
    (reservedOpcode 0x02 = false ∧ ¬ lengthFits (some 2) 0x02 4) ∧
    (reservedOpcode 0x02 = false ∧ lengthFits (some 2) 0x02 3) := by
  refine ⟨by decide, ⟨by decide, ?_⟩, by decide, ?_⟩ <;> simp [lengthFits]

theorem witness_EmptyFrameRaisesErrFormat : ∃ (s : State) (rest : List HostEvent), s.incoming = .request [] :: rest :=
  ⟨ready [.request []], _, rfl⟩

theorem witness_ReservedOpcodeRaisesErrIllegal :
    ∃ (s : State) (code : Byte) (payload : Frame) (rest : List HostEvent), reservedOpcode code = true ∧
      s.incoming = .request (code :: payload) :: rest := ⟨ready [.request [0xFF, 0xFF]], 0xFF, [0xFF], [], by decide, rfl⟩

theorem witness_ErrFormatExactlyForEmptyOrMisSizedFrames :
    ∃ (s : State) (req : Frame) (rest : List HostEvent) (e : DecodeError), s.incoming = .request req :: rest ∧
      decode req = .reject e ∧ decodeErr e = .format :=
  ⟨ready [.request [0x30, 0x30]], _, _, .badLength 0x30 2, rfl, by decide, rfl⟩

/-- A state and a frame for each clause. -/
theorem witness_ErrorPriority :
    lengthFits Config.maxBuf 0x10 37 ∧ lengthFits Config.maxBuf 0x20 9 ∧ lengthFits Config.maxBuf 0x38 1 ∧
    (ready []).arch.calValid = true ∧ (demo fixtureF false false 0 []).arch.calValid = false ∧
    (demo fixtureF false false 0 []).arch.valid = false ∧
    ((demo fixtureF true true 0 []).arch.valid = true ∧ fle (demo fixtureF true true 0 []).arch.hum 0 = true) := by
  refine ⟨?_, ?_, ?_, by decide, by decide, by decide, by decide, by decide +kernel⟩ <;> simp [lengthFits]

theorem witness_ErrorsAndReadsChangeNoRegister : ∃ s req rest t r, s.incoming = .request req :: rest ∧
    step s = .next t ∧ t.response = some r ∧ r.head? = some 0x82 :=
  ⟨demo fixtureF false false 0 [.request [0x20, 0, 0, 0, 0, 0, 0, 0, 0]], _, _, _, _, rfl, rfl, rfl, rfl⟩

theorem witness_VerifyRejectsLengthNotMultipleOfThree : ∃ buf : List Byte, buf.length % 3 ≠ 0 := ⟨[0x92], by decide⟩

theorem witness_VerifyOfEmptyBufferIsTrue : ∃ (s : State) (rest : List HostEvent), s.incoming = .request [0x02] :: rest :=
  ⟨ready [.request [0x02]], _, rfl⟩

theorem witness_CrcOperationsArePure : ∃ (code : Byte) (payload : Frame) (s : State) (rest : List HostEvent),
    (code = 0x01 ∨ code = 0x02) ∧ s.incoming = .request (code :: payload) :: rest :=
  ⟨0x02, [], ready [.request [0x02]], [], .inr rfl, rfl⟩

theorem witness_ValidGroupsDifferInFourBits : ∃ a b c d : Byte, a ≠ c ∨ b ≠ d := ⟨0, 0, 0, 1, by decide⟩

/-- An odd error at the last bit, and a burst at each end of the group. -/
theorem witness_OddAndBurstErrorsAreDetected :
    weight (1#24) % 2 = 1 ∧ (0xFF#24 ≠ 0 ∧ ∀ i, (0xFF#24).getLsbD i = true → 0 ≤ i ∧ i < 0 + 8) ∧
    (0xFF0000#24 ≠ 0 ∧ ∀ i, (0xFF0000#24).getLsbD i = true → 16 ≤ i ∧ i < 16 + 8) := by
  have h24 : ∀ (v : BitVec 24) i, v.getLsbD i = true → i < 24 := fun v i h => by
    by_contra hc; simp [BitVec.getLsbD_of_ge v i (by omega)] at h
  refine ⟨by decide, ⟨by decide, fun i h => ?_⟩, by decide, fun i h => ?_⟩
  · have := h24 _ _ h
    interval_cases i <;> simp_all +decide
  · have := h24 _ _ h
    interval_cases i <;> simp_all +decide

theorem witness_VerifyOfConcatenation : ∃ u v : List Byte, u ≠ [] ∧ v ≠ [] ∧ u.length % 3 = 0 ∧ v.length % 3 = 0 :=
  ⟨[0, 0, 0x81], [0xFF, 0, 0], by decide⟩

theorem witness_calibrated : ∃ s : State, s.arch.calValid = true := ⟨ready [], rfl⟩

theorem witness_uncalibrated : ∃ s : State, s.arch.calValid = false := ⟨State.reset, rfl⟩

theorem witness_reading : ∃ s : State, s.arch.valid = true := ⟨ready [], rfl⟩

theorem witness_noReading : ∃ s : State, s.arch.valid = false := ⟨State.reset, rfl⟩

theorem witness_LoadedCalibrationIsImmutableUntilReset : ∃ s t, s.arch.calValid = true ∧ step s = .next t ∧
    (∀ rest, s.incoming ≠ .reset :: rest) := ⟨ready [.request []], _, rfl, rfl, by simp [ready, demo]⟩

theorem witness_UnavailableBeforeFirstReading : ∃ s t, s.arch.valid = true ∧ step s = .next t ∧
    (∀ rest, s.incoming ≠ .reset :: rest) := ⟨ready [.request []], _, rfl, rfl, by simp [ready, demo]⟩

theorem witness_ConvertDependsOnSampleAndCalibrationAlone : ∃ s₁ s₂ t₁ t₂, s₁.arch.calValid = true ∧
    s₂.arch.calValid = true ∧ s₁.arch.cal = s₂.arch.cal ∧ s₁.arch.alt ≠ s₂.arch.alt ∧
    exec (.convert 0 0 0) s₁ = .next t₁ ∧ exec (.convert 0 0 0) s₂ = .next t₂ :=
  ⟨ready [], (ready []).setAlt 0, _, _, rfl, rfl, rfl, by decide, rfl, rfl⟩

theorem witness_ConvertIgnoresDroppedBits : ∃ p p' : Byte, p ≠ p' ∧ p >>> 4 = p' >>> 4 := ⟨0xC0, 0xCF, by decide⟩

theorem witness_ZeroFirstPressureCoefficientGivesSentinel : ∃ s : State, s.arch.calValid = true ∧ s.arch.cal.p1 = 0 :=
  ⟨ready [], rfl, rfl⟩

/-- One value for each clause of the clamp statements, next to the bounds. -/
theorem witness_ClampCases :
    (isFinite 0 = true ∧ isFinite 0x4059000000000000 = true ∧ fle 0 0x4059000000000000 = true) ∧
    flt 0x8000000000000001 0 = true ∧ fgt 0x4059000000000001 0x4059000000000000 = true ∧
    (fle 0 0x8000000000000000 = true ∧ fle 0x8000000000000000 0x4059000000000000 = true) ∧
    isNaN 0x7FF8000000000001 = true := by decide +kernel

theorem witness_DewPointAnswers :
    ((demo fixtureF true true 0x8000000000000000 []).arch.valid = true ∧
      fle (demo fixtureF true true 0x8000000000000000 []).arch.hum 0 = true) ∧
    ((demo fixtureF true true 0x0000000000000001 []).arch.valid = true ∧
      fle (demo fixtureF true true 0x0000000000000001 []).arch.hum 0 = false) := by decide +kernel

theorem witness_PressureInHectopascalIsInRange :
    inRange 0x40DD4C0000000000 0x40FADB0000000000 0x40DD4C0000000000 = true ∧ isNaN 0xFFFFFFFFFFFFFFFF = true := by
  decide +kernel

theorem witness_DewPointUndefinedExactlyAtZeroHumidity : humOk 0x8000000000000000 = true := by decide +kernel

theorem witness_DewPointDivisorIsPositive : tempOk 0xC044000000000000 = true := by decide +kernel

/-- Finite operands with a finite and with an overflowing result, and the zero divisors. -/
theorem witness_rounding :
    (isFinite 0x7FEFFFFFFFFFFFFF = true ∧ isFinite (fadd 0x7FEFFFFFFFFFFFFF 0x7FEFFFFFFFFFFFFF) = false) ∧
    (isFinite 0x3FF0000000000000 = true ∧ isFinite (fmul 0x3FF0000000000000 0x3FF0000000000000) = true) ∧
    (isFinite 0x8000000000000000 = true ∧ unitsOf 0x8000000000000000 = 0 ∧ unitsOf 0x3FF0000000000000 ≠ 0) := by
  decide +kernel

/-- Infinite and NaN operands for each clause of the rounding statements, and a quiet and a signalling NaN. -/
theorem witness_rounding_special :
    (isInf 0x7FF0000000000000 = true ∧ isInf 0xFFF0000000000000 = true ∧
      signBit 0x7FF0000000000000 ≠ signBit 0xFFF0000000000000) ∧
    (isInf 0x7FEFFFFFFFFFFFFF = false ∧ isNaN 0x7FF0000000000000 = false ∧ isNaN 0x7FF0000000000001 = true) ∧
    (isFinite 0x8000000000000000 = true ∧ unitsOf 0x8000000000000000 = 0 ∧ unitsOf 0x0000000000000001 ≠ 0) ∧
    isQuietNaN 0x7FF8000000000000 = true ∧ isQuietNaN 0x7FF0000000000001 = false := by decide +kernel

theorem witness_IntegerConversionIsExact : ∃ n : Int, n < 0 ∧ |n| < 2 ^ 53 := ⟨-1, by decide⟩

end Sys2Proof.Tests
end

/-! # Proofs: the state, its invariant and its frame (10_state.md) -/

namespace Sys2Proof.Machine

/-! ## The comparisons and the clamp (R84) -/

theorem flt_iff (a b : F64) :
    flt a b = true ↔ isNaN a = false ∧ isNaN b = false ∧ unitsOf a < unitsOf b := by
  simp [flt, and_assoc]

theorem fgt_iff (a b : F64) :
    fgt a b = true ↔ isNaN a = false ∧ isNaN b = false ∧ unitsOf b < unitsOf a := by
  simp [fgt, and_assoc]

theorem fle_iff (a b : F64) :
    fle a b = true ↔ isNaN a = false ∧ isNaN b = false ∧ unitsOf a ≤ unitsOf b := by
  simp [fle, and_assoc]

theorem abs_unitsOf (v : F64) : |unitsOf v| = magUnits v := by
  rw [unitsOf]; split <;> simp

/-- Finite values are those of a smaller magnitude than an infinity's fields stand for. -/
theorem isFinite_iff_magUnits (v : F64) : isFinite v = true ↔ magUnits v < magOfBits infMagnitude := by
  rw [isFinite_iff, magUnits_eq, magOfBits_strictMono.lt_iff_lt]

/-- A pattern between two finite values is finite. -/
theorem isFinite_of_between {lo v hi : F64} (hlo : isFinite lo = true) (hhi : isFinite hi = true)
    (h₁ : unitsOf lo ≤ unitsOf v) (h₂ : unitsOf v ≤ unitsOf hi) : isFinite v = true := by
  rw [isFinite_iff_magUnits] at *
  have hv : |unitsOf v| ≤ max |unitsOf lo| |unitsOf hi| := abs_le_max_abs_abs h₁ h₂
  simp only [abs_unitsOf] at hv
  omega

/-- A number clamped to a range with finite ends is a finite number in that range, infinities included. -/
theorem clamp_inRange {v lo hi : F64} (hv : isNaN v = false) (hlo : isFinite lo = true) (hhi : isFinite hi = true)
    (hle : fle lo hi = true) : inRange lo hi (clamp v lo hi) = true := by
  have nlo := isNaN_of_isFinite hlo
  have nhi := isNaN_of_isFinite hhi
  have ⟨_, _, hlehi⟩ := (fle_iff lo hi).mp hle
  simp only [inRange, Bool.and_eq_true, fle_iff, clamp, and_assoc]
  split_ifs with hlt hgt
  · exact ⟨hlo, nlo, nlo, le_refl _, nlo, nhi, hlehi⟩
  · exact ⟨hhi, nlo, nhi, hlehi, nhi, nhi, le_refl _⟩
  · have above : unitsOf lo ≤ unitsOf v := not_lt.mp fun h => hlt ((flt_iff _ _).mpr ⟨hv, nlo, h⟩)
    have below : unitsOf v ≤ unitsOf hi := not_lt.mp fun h => hgt ((fgt_iff _ _).mpr ⟨hv, nhi, h⟩)
    exact ⟨isFinite_of_between hlo hhi above below, nlo, hv, above, hv, nhi, below⟩

/-- A NaN fails every comparison, so it passes the clamp unchanged. -/
theorem clamp_of_isNaN {v : F64} (hv : isNaN v = true) (lo hi : F64) : clamp v lo hi = v := by
  simp [clamp, flt, fgt, hv]

theorem clamp_isNaN_or_inRange (v : F64) {lo hi : F64} (hlo : isFinite lo = true) (hhi : isFinite hi = true)
    (hle : fle lo hi = true) : (isNaN (clamp v lo hi) || inRange lo hi (clamp v lo hi)) = true := by
  cases hv : isNaN v with
  | false => simp [clamp_inRange hv hlo hhi hle]
  | true => simp [clamp_of_isNaN hv, hv]

/-! ## Finite values bounded by a power of two -/

@[simp] theorem isFinite_fneg (v : F64) : isFinite (fneg v) = isFinite v := by
  rw [Bool.eq_iff_iff, isFinite_iff, isFinite_iff, fneg_mag]

@[simp] theorem magUnits_fneg (v : F64) : magUnits (fneg v) = magUnits v := by
  rw [magUnits_eq, magUnits_eq, fneg_mag]

/-- `v` is a finite number of magnitude at most `2^k`. -/
structure AtMostPow (k : Nat) (v : F64) : Prop where
  finite : isFinite v = true
  mag_le : magUnits v ≤ 2 ^ k * oneUnits

theorem oneUnits_pos : 0 < oneUnits := by decide +kernel

/-- The magnitude bits of `2^k`. -/
theorem magOfBits_two_pow (k : Nat) : magOfBits ((k + 1023) * 2 ^ 52) = 2 ^ k * oneUnits := by
  have scaled : magOfBits ((k + 1022) * 2 ^ 52 + 2 ^ 52) = 2 ^ 52 * 2 ^ (k + 1022) :=
    magOfBits_scaled (k + 1022) (2 ^ 52) (by omega) (.inr le_rfl)
  rw [show (k + 1023) * 2 ^ 52 = (k + 1022) * 2 ^ 52 + 2 ^ 52 by ring, scaled, oneUnits, ← Nat.pow_add,
    ← Nat.pow_add, show 52 + (k + 1022) = k + 1074 by ring]

namespace AtMostPow

variable {k l : Nat} {a b v : F64}

theorem mono (h : AtMostPow k v) (hkl : k ≤ l) : AtMostPow l v :=
  ⟨h.finite, h.mag_le.trans (Nat.mul_le_mul_right _ (Nat.pow_le_pow_right (by decide) hkl))⟩

theorem isNaN (h : AtMostPow k v) : isNaN v = false := isNaN_of_isFinite h.finite

theorem isInf (h : AtMostPow k v) : isInf v = false := isInf_of_isFinite h.finite

theorem fneg (h : AtMostPow k v) : AtMostPow k (fneg v) := ⟨by simp [h.finite], by simpa using h.mag_le⟩

theorem zero (k : Nat) (neg : Bool) : AtMostPow k (packSign neg 0) where
  finite := by rw [isFinite_iff, packSign_mag neg (by decide)]; decide
  mag_le := by rw [magUnits_eq, packSign_mag neg (by decide)]; simp [magOfBits]

/-- Rounding an exact value of magnitude at most `2^k` stays within it: `2^k` is a value of the format. -/
theorem roundF64 (neg : Bool) {n d : Nat} (hd : 0 < d) (hk : k < 1024) (h : n ≤ d * (2 ^ k * oneUnits)) :
    AtMostPow k (roundF64 neg n d) := by
  rw [← magOfBits_two_pow] at h
  have hm : roundMagnitude n d ≤ (k + 1023) * 2 ^ 52 := roundMagnitude_le n d _ hd h
  constructor
  · rw [isFinite_roundF64, infMagnitude]; omega
  · rw [magUnits_eq, Machine.roundF64, packSign_mag neg (roundMagnitude_lt n d), ← magOfBits_two_pow]
    exact magOfBits_strictMono.monotone hm

theorem i2f {n : Int} (hk : k < 1024) (h : n.natAbs ≤ 2 ^ k) : AtMostPow k (i2f n) := by
  have rounded (neg : Bool) (m : Nat) (hm : m ≤ 2 ^ k) : AtMostPow k (Machine.roundF64 neg (m * oneUnits) 1) :=
    roundF64 neg Nat.one_pos hk ((Nat.mul_le_mul_right oneUnits hm).trans_eq (Nat.one_mul _).symm)
  unfold Machine.i2f
  split
  case h_1 => exact zero k false
  case h_2 m => exact rounded false (m + 1) h
  case h_3 m => exact rounded true (m + 1) h

theorem fadd (ha : AtMostPow k a) (hb : AtMostPow k b) (hk : k + 1 < 1024) : AtMostPow (k + 1) (fadd a b) := by
  simp only [Machine.fadd, ha.isNaN, hb.isNaN, ha.isInf, hb.isInf, Bool.or_self, Bool.false_and, Bool.false_eq_true,
    if_false]
  split_ifs
  · exact zero _ _
  · refine roundF64 _ Nat.one_pos hk ?_
    have triangle : (unitsOf a + unitsOf b).natAbs ≤ magUnits a + magUnits b := by
      have h := abs_add_le (unitsOf a) (unitsOf b)
      rw [abs_unitsOf, abs_unitsOf, Int.abs_eq_natAbs] at h
      exact_mod_cast h
    calc (unitsOf a + unitsOf b).natAbs ≤ 2 ^ k * oneUnits + 2 ^ k * oneUnits :=
          triangle.trans (Nat.add_le_add ha.mag_le hb.mag_le)
      _ = 1 * (2 ^ (k + 1) * oneUnits) := by rw [Nat.pow_succ]; ring

theorem fsub (ha : AtMostPow k a) (hb : AtMostPow k b) (hk : k + 1 < 1024) : AtMostPow (k + 1) (fsub a b) := by
  simp only [Machine.fsub, ha.isNaN, hb.isNaN, ha.isInf, Bool.or_self, Bool.false_and, Bool.false_eq_true, if_false]
  exact ha.fadd hb.fneg hk

theorem fmul (ha : AtMostPow k a) (hb : AtMostPow l b) (hkl : k + l < 1024) : AtMostPow (k + l) (fmul a b) := by
  simp only [Machine.fmul, ha.isNaN, hb.isNaN, ha.isInf, hb.isInf, Bool.or_self, Bool.false_and, Bool.false_eq_true,
    if_false]
  refine roundF64 _ oneUnits_pos hkl ?_
  calc magUnits a * magUnits b ≤ 2 ^ k * oneUnits * (2 ^ l * oneUnits) := Nat.mul_le_mul ha.mag_le hb.mag_le
    _ = oneUnits * (2 ^ (k + l) * oneUnits) := by rw [Nat.pow_add]; ring

/-- Dividing by a finite number of magnitude at least 1 keeps the bound. -/
theorem fdiv (ha : AtMostPow k a) (hk : k < 1024) (hb : isFinite b = true) (hb1 : oneUnits ≤ magUnits b) :
    AtMostPow k (fdiv a b) := by
  have pos : 0 < magUnits b := oneUnits_pos.trans_le hb1
  simp only [Machine.fdiv, ha.isNaN, isNaN_of_isFinite hb, ha.isInf, isInf_of_isFinite hb, beq_false_of_ne pos.ne',
    Bool.or_self, Bool.and_false, Bool.false_eq_true, if_false]
  refine roundF64 _ pos hk ?_
  calc magUnits a * oneUnits ≤ 2 ^ k * oneUnits * magUnits b := Nat.mul_le_mul ha.mag_le hb1
    _ = magUnits b * (2 ^ k * oneUnits) := Nat.mul_comm _ _

end AtMostPow

/-! ## The stages of CONVERT (R91, R97, R98, R101) -/

theorem u16_natAbs_le (c : BitVec 16) : (u16 c).natAbs ≤ 2 ^ 16 := by
  have := c.isLt
  simp only [u16]
  omega

theorem s16_natAbs_le (c : BitVec 16) : (s16 c).natAbs ≤ 2 ^ 16 := by
  have := BitVec.toInt_lt (x := c)
  have := BitVec.le_toInt c
  simp only [s16]
  omega

theorem rawT_natAbs_le (rawT : BitVec 20) : (rawT.toNat : Int).natAbs ≤ 2 ^ 20 := by
  have := rawT.isLt
  omega

/-- The difference of two bounded quotients, as `a` and `b` of R90 are. -/
theorem quotientDifference_atMostPow (rawT : BitVec 20) (t1 : BitVec 16) {d e : F64}
    (hd : isFinite d = true ∧ oneUnits ≤ magUnits d) (he : isFinite e = true ∧ oneUnits ≤ magUnits e) :
    AtMostPow 21 (fsub (fdiv (i2f rawT.toNat) d) (fdiv (i2f (u16 t1)) e)) := by
  have hraw : AtMostPow 20 (fdiv (i2f rawT.toNat) d) :=
    (AtMostPow.i2f (by decide) (rawT_natAbs_le rawT)).fdiv (by decide) hd.1 hd.2
  have ht1 : AtMostPow 16 (fdiv (i2f (u16 t1)) e) :=
    (AtMostPow.i2f (by decide) (u16_natAbs_le t1)).fdiv (by decide) he.1 he.2
  exact hraw.fsub (ht1.mono (by decide)) (by decide)

theorem tempA_atMostPow (rawT : BitVec 20) (t1 : BitVec 16) : AtMostPow 21 (tempA rawT (u16 t1)) :=
  quotientDifference_atMostPow rawT t1 (by decide +kernel) (by decide +kernel)

theorem tempB_atMostPow (rawT : BitVec 20) (t1 : BitVec 16) : AtMostPow 21 (tempB rawT (u16 t1)) :=
  quotientDifference_atMostPow rawT t1 (by decide +kernel) (by decide +kernel)

/-- The temperature sum is finite for every sample and calibration (the bound of R92 is tighter). -/
theorem tempSumOf_atMostPow (rawT : BitVec 20) (c : Coeffs) : AtMostPow 59 (tempSumOf rawT c) := by
  have hb := tempB_atMostPow rawT c.t1
  have hvar1 : AtMostPow 37 (tempVar1 rawT (u16 c.t1) (s16 c.t2)) :=
    (tempA_atMostPow rawT c.t1).fmul (AtMostPow.i2f (by decide) (s16_natAbs_le c.t2)) (by decide)
  have hvar2 : AtMostPow 58 (tempVar2 rawT (u16 c.t1) (s16 c.t3)) :=
    (hb.fmul hb (by decide)).fmul (AtMostPow.i2f (by decide) (s16_natAbs_le c.t3)) (by decide)
  exact (hvar1.mono (by decide)).fadd hvar2 (by decide)

/-- The stored temperature is a number in its range: the sum is never a NaN (R94). -/
theorem tempOk_clampedTemp (rawT : BitVec 20) (c : Coeffs) : tempOk (clampedTemp (tempSumOf rawT c)) = true := by
  have quotient : AtMostPow 59 (fdiv (tempSumOf rawT c) 0x40B4000000000000) :=
    (tempSumOf_atMostPow rawT c).fdiv (by decide) (by decide +kernel) (by decide +kernel)
  exact clamp_inRange quotient.isNaN (by decide +kernel) (by decide +kernel) (by decide +kernel)

theorem pressOk_pressureStage (a : PressureArgs) : pressOk (pressureStage a) = true := by
  rw [pressureStage]
  split
  case h_1 => decide +kernel
  case h_2 v _ => exact clamp_isNaN_or_inRange v (by decide +kernel) (by decide +kernel) (by decide +kernel)

theorem humOk_humidityStage (a : HumidityArgs) : humOk (humidityStage a) = true :=
  clamp_isNaN_or_inRange _ (by decide +kernel) (by decide +kernel) (by decide +kernel)

end Sys2Proof.Machine

namespace Sys2Proof.Machine

/-! ## The legal responses (R48, R131) -/

theorem legalResponse_status {st : Status} (h : st ≠ .undef) : legalResponse [st.code] := by
  refine .inl ⟨st.code, ?_, rfl⟩
  cases st <;> simp_all [Status.code]

theorem legalResponse_byte (b : Byte) : legalResponse [Status.ok.code, b] := .inr (.inl ⟨b, rfl⟩)

theorem legalResponse_be64 (v : F64) : legalResponse (Status.ok.code :: be64 v) := .inr (.inr (.inl ⟨v, rfl⟩))

theorem legalResponse_undef (v : F64) : legalResponse (Status.undef.code :: be64 v) :=
  .inr (.inr (.inr ⟨v, rfl⟩))

theorem legalResponse_err (e : Err) : legalResponse [e.status.code] :=
  legalResponse_status (by cases e <;> simp [Err.status])

theorem legalResponse_dewAnswer (a : Arch) : legalResponse ((dewAnswer a).1.code :: (dewAnswer a).2) := by
  rw [dewAnswer]
  split
  · exact legalResponse_undef _
  · exact legalResponse_be64 _

/-! ## The reads that need a reading (R111) -/

/-- What an RD operation answers from a stored reading; `none` for the operations that do not need one. -/
def readAnswer : Instr → Option (Arch → Status × List Byte)
  | .rdT => some fun a => (.ok, be64 a.temp)
  | .rdP => some fun a => (.ok, be64 (pressureHPa a.press))
  | .rdPn => some fun a => (.ok, be64 a.press)
  | .rdH => some fun a => (.ok, be64 a.hum)
  | .rdDew => some dewAnswer
  | .rdRho => some fun a => (.ok, be64 (rho a.temp a.press a.hum))
  | .rdSlp => some fun a => (.ok, be64 (slp a.temp a.press a.hum a.alt))
  | _ => none

theorem exec_of_readAnswer {i : Instr} {answer : Arch → Status × List Byte} (h : readAnswer i = some answer)
    (s : State) : exec i s = s.withReading answer := by
  cases i with
  | rdT | rdP | rdPn | rdH | rdDew | rdRho | rdSlp => cases h; rfl
  | _ => cases h

theorem legalResponse_readAnswer {i : Instr} {answer : Arch → Status × List Byte} (h : readAnswer i = some answer)
    (a : Arch) : legalResponse ((answer a).1.code :: (answer a).2) := by
  cases i with
  | rdDew => cases h; exact legalResponse_dewAnswer a
  | rdT | rdP | rdPn | rdH | rdRho | rdSlp => cases h; exact legalResponse_be64 _
  | _ => cases h

/-! ## converted -/

section Converted

variable (s : State) (p q : BitVec 24) (h : BitVec 16)

/-- `TFINE` as CONVERT leaves it: the floor of the unclamped sum (R92). -/
def convertedTfine (q : BitVec 24) (c : Coeffs) : BitVec 32 :=
  BitVec.ofInt 32 (floorInt (tempSumOf (top20 q) c))

@[simp] theorem converted_arch : (s.converted p q h).arch =
    { s.arch with
      temp := clampedTemp (tempSumOf (top20 q) s.arch.cal)
      press := pressureStage (pressureArgs (convertedTfine q s.arch.cal) (top20 p) s.arch.cal)
      hum := humidityStage (humidityArgs (convertedTfine q s.arch.cal) h s.arch.cal)
      valid := true } := rfl
@[simp] theorem converted_crcReg : (s.converted p q h).work.crcReg = s.work.crcReg := rfl
@[simp] theorem converted_gidx : (s.converted p q h).work.gidx = s.work.gidx := rfl
@[simp] theorem converted_okf : (s.converted p q h).work.okf = s.work.okf := rfl
@[simp] theorem converted_incoming : (s.converted p q h).incoming = s.incoming := rfl
@[simp] theorem converted_draw : (s.converted p q h).draw = s.draw := rfl

end Converted

/-! ## What an operation can do -/

/-- CRC.VERIFY of whole groups answers their conjunction, whatever the working registers held. -/
theorem execCrcVerify_eq (buf : List Byte) (s : State) :
    execCrcVerify buf s =
      if buf.length % 3 ≠ 0 then .next (s.respond .ok [boolByte false])
      else .next ((s.setWork (checkGroups buf { s.work with okf := true, gidx := 0 })).respond .ok
        [boolByte (groupsOk buf)]) := by
  simp only [execCrcVerify, checkGroups_okf, Bool.true_and]

/-- What an operation can do to the state: it answers and writes nothing, or it writes its own registers (the table
of R14). -/
inductive Effect (s : State) : Instr → State → Prop where
  | answer {i : Instr} (st : Status) (bytes : List Byte) (legal : legalResponse (st.code :: bytes)) :
      Effect s i (s.respond st bytes)
  | crcCompute (b0 b1 : Byte) :
      Effect s (.crcCompute b0 b1) ((s.setWork { s.work with crcReg := crc8 b0 b1 }).respond .ok [crc8 b0 b1])
  | crcVerify (buf : List Byte) :
      Effect s (.crcVerify buf) ((s.setWork (checkGroups buf { s.work with okf := true, gidx := 0 })).respond .ok
        [boolByte (groupsOk buf)])
  | calLoad (c : Coeffs) : Effect s (.calLoad c) ((s.loadCal c).respond .ok [])
  | altSet (v : F64) : Effect s (.altSet v) ((s.setAlt v).respond .ok [])
  | convert (p q : BitVec 24) (h : BitVec 16) (calibrated : s.arch.calValid = true) :
      Effect s (.convert p q h) ((s.converted p q h).respond .ok [])

namespace Effect

variable {s t : State}

theorem of_crcVerify {buf : List Byte} (h : execCrcVerify buf s = .next t) : Effect s (.crcVerify buf) t := by
  rw [execCrcVerify_eq] at h
  split at h <;> cases h
  · exact .answer _ _ (legalResponse_byte _)
  · exact .crcVerify buf

theorem of_calLoad {c : Coeffs} (h : execCalLoad c s = .next t) : Effect s (.calLoad c) t := by
  rw [execCalLoad] at h
  split at h <;> cases h
  · exact .answer _ _ (legalResponse_err .state)
  · exact .calLoad c

theorem of_convert {p q : BitVec 24} {r : BitVec 16} (h : execConvert p q r s = .next t) :
    Effect s (.convert p q r) t := by
  rw [execConvert] at h
  split at h <;> cases h
  case isTrue calibrated => exact .convert p q r calibrated
  case isFalse => exact .answer _ _ (legalResponse_err .noCal)

theorem of_read {i : Instr} {answer : Arch → Status × List Byte} (hi : readAnswer i = some answer)
    (h : exec i s = .next t) : Effect s i t := by
  rw [exec_of_readAnswer hi, withReading_eq] at h
  cases h
  split
  · exact .answer _ _ (legalResponse_readAnswer hi s.arch)
  · exact .answer _ _ (legalResponse_status (by decide))

/-- The inversion of `exec`. -/
theorem of_exec {i : Instr} (h : exec i s = .next t) : Effect s i t := by
  cases i with
  | crcCompute b0 b1 => cases h; exact .crcCompute b0 b1
  | crcVerify buf => exact of_crcVerify h
  | calLoad c => exact of_calLoad h
  | altSet v => cases h; exact .altSet v
  | convert p q r => exact of_convert h
  | rdT | rdP | rdPn | rdH | rdDew | rdRho | rdSlp => exact of_read rfl h
  | rdValid => cases h; exact .answer _ _ (legalResponse_byte _)

end Effect

/-! ## The step, by what the host sends next -/

section Step

variable {s : State} {req : Frame} {rest : List HostEvent}

theorem step_of_idle (h : s.incoming = []) : step s = .next s := by simp [step, h]

theorem step_of_reset (h : s.incoming = .reset :: rest) : step s = .next (State.atReset s.draw rest) := by
  simp [step, h]

theorem step_of_instr {i : Instr} (h : s.incoming = .request req :: rest) (hd : decode req = .instr i) :
    step s = exec i (s.take rest) := by
  simp [step, h, hd]

theorem step_of_reject {e : DecodeError} (h : s.incoming = .request req :: rest) (hd : decode req = .reject e) :
    step s = .next ((s.take rest).raise (decodeErr e)) := by
  simp [step, h, hd]

end Step

end Sys2Proof.Machine

/-! ## The invariant (R12, R16, R48, R131) -/

namespace Sys2Proof.StateInv

open Machine

variable {s t : State}

/-- After a reset nothing is stored and nothing stands on the port. -/
theorem atReset (draw : Nat) (incoming : List HostEvent) : StateInv (State.atReset draw incoming) := by
  constructor <;> simp

theorem respond (inv : StateInv s) {st : Status} {bytes : List Byte} (legal : legalResponse (st.code :: bytes)) :
    StateInv (s.respond st bytes) :=
  ⟨inv.reading_calibrated, inv.temp_ok, inv.press_ok, inv.hum_ok, by simpa using legal⟩

/-- An answer of `ST_OK` alone. -/
theorem respondOk (inv : StateInv s) : StateInv (s.respond .ok []) :=
  inv.respond (legalResponse_status (by decide))

theorem take (inv : StateInv s) (rest : List HostEvent) : StateInv (s.take rest) :=
  ⟨inv.reading_calibrated, inv.temp_ok, inv.press_ok, inv.hum_ok, inv.response_ok⟩

theorem setWork (inv : StateInv s) (w : Work) : StateInv (s.setWork w) :=
  ⟨inv.reading_calibrated, inv.temp_ok, inv.press_ok, inv.hum_ok, inv.response_ok⟩

theorem loadCal (inv : StateInv s) (c : Coeffs) : StateInv (s.loadCal c) :=
  ⟨fun _ => rfl, inv.temp_ok, inv.press_ok, inv.hum_ok, inv.response_ok⟩

theorem setAlt (inv : StateInv s) (v : F64) : StateInv (s.setAlt v) :=
  ⟨inv.reading_calibrated, inv.temp_ok, inv.press_ok, inv.hum_ok, inv.response_ok⟩

/-- CONVERT stores three clamped values, whatever was stored before. -/
theorem converted (inv : StateInv s) (calibrated : s.arch.calValid = true) (p q : BitVec 24) (h : BitVec 16) :
    StateInv (s.converted p q h) where
  reading_calibrated _ := calibrated
  temp_ok _ := tempOk_clampedTemp _ _
  press_ok _ := pressOk_pressureStage _
  hum_ok _ := humOk_humidityStage _
  response_ok := inv.response_ok

theorem effect {i : Instr} (inv : StateInv s) (h : Effect s i t) : StateInv t := by
  cases h with
  | answer _ _ legal => exact inv.respond legal
  | crcCompute => exact (inv.setWork _).respond (legalResponse_byte _)
  | crcVerify => exact (inv.setWork _).respond (legalResponse_byte _)
  | calLoad c => exact (inv.loadCal c).respondOk
  | altSet v => exact (inv.setAlt v).respondOk
  | convert p q r calibrated => exact (inv.converted calibrated p q r).respondOk

theorem step (inv : StateInv s) (h : Machine.step s = .next t) : StateInv t := by
  rcases step_cases s with ⟨-, idle⟩ | ⟨rest, -, reset⟩ | ⟨req, rest, i, -, -, run⟩ | ⟨req, rest, e, -, -, reject⟩
  · cases idle.symm.trans h; exact inv
  · cases reset.symm.trans h; exact atReset _ _
  · exact (inv.take rest).effect (.of_exec (run.symm.trans h))
  · cases reject.symm.trans h; exact (inv.take rest).respond (legalResponse_err _)

end Sys2Proof.StateInv

/-! ## The working registers cannot be observed (R13, R21, R22) -/

namespace Sys2Proof.AgreeButWork

open Machine

/-- Two outcomes that are next states which agree but for the working registers, with the same response. -/
def Answers (o₁ o₂ : Host.Outcome State Fault Refusal) : Prop :=
  ∃ t₁ t₂, o₁ = .next t₁ ∧ o₂ = .next t₂ ∧ AgreeButWork t₁ t₂ ∧ t₁.response = t₂.response

variable {s₁ s₂ : State}

theorem respond (h : AgreeButWork s₁ s₂) (st : Status) (bytes : List Byte) :
    Answers (.next (s₁.respond st bytes)) (.next (s₂.respond st bytes)) :=
  ⟨_, _, rfl, rfl, ⟨h.arch, h.incoming, h.draw⟩, rfl⟩

theorem take (h : AgreeButWork s₁ s₂) (rest : List HostEvent) : AgreeButWork (s₁.take rest) (s₂.take rest) :=
  ⟨h.arch, rfl, h.draw⟩

theorem setWork (h : AgreeButWork s₁ s₂) (w₁ w₂ : Work) : AgreeButWork (s₁.setWork w₁) (s₂.setWork w₂) :=
  ⟨h.arch, h.incoming, h.draw⟩

theorem loadCal (h : AgreeButWork s₁ s₂) (c : Coeffs) : AgreeButWork (s₁.loadCal c) (s₂.loadCal c) :=
  ⟨by simp [State.loadCal, h.arch], h.incoming, h.draw⟩

theorem setAlt (h : AgreeButWork s₁ s₂) (v : F64) : AgreeButWork (s₁.setAlt v) (s₂.setAlt v) :=
  ⟨by simp [State.setAlt, h.arch], h.incoming, h.draw⟩

/-- CONVERT writes RAW_T, RAW_P, RAW_H and TFINE before it reads them. -/
theorem converted (h : AgreeButWork s₁ s₂) (p q : BitVec 24) (r : BitVec 16) :
    AgreeButWork (s₁.converted p q r) (s₂.converted p q r) :=
  ⟨by simp [h.arch], h.incoming, h.draw⟩

theorem read (h : AgreeButWork s₁ s₂) {i : Instr} {answer : Arch → Status × List Byte}
    (hi : readAnswer i = some answer) : Answers (exec i s₁) (exec i s₂) := by
  simp only [exec_of_readAnswer hi, withReading_eq, h.arch]
  split
  · exact h.respond _ _
  · exact h.respond _ _

/-- An operation answers the same and leaves the same registers, whatever the working registers held. -/
theorem exec (h : AgreeButWork s₁ s₂) (i : Instr) : Answers (exec i s₁) (exec i s₂) := by
  have calibrated : s₁.calibrated = s₂.calibrated := by simp [State.calibrated, h.arch]
  have hasReading : s₁.hasReading = s₂.hasReading := by simp [State.hasReading, h.arch]
  cases i with
  | crcCompute b0 b1 => exact (h.setWork _ _).respond _ _
  | crcVerify buf =>
    simp only [Machine.exec, execCrcVerify_eq]
    split
    · exact h.respond _ _
    · exact (h.setWork _ _).respond _ _
  | calLoad c =>
    simp only [Machine.exec, execCalLoad, calibrated]
    split
    · exact h.respond _ _
    · exact (h.loadCal c).respond _ _
  | altSet v => exact (h.setAlt v).respond _ _
  | convert p q r =>
    simp only [Machine.exec, execConvert, calibrated]
    split
    · exact (h.converted p q r).respond _ _
    · exact h.respond _ _
  | rdT | rdP | rdPn | rdH | rdDew | rdRho | rdSlp => exact h.read rfl
  | rdValid =>
    simp only [Machine.exec, execRdValid, hasReading]
    exact h.respond _ _

/-- When an event is sent, both sides take the same one. -/
theorem step (h : AgreeButWork s₁ s₂) (sent : s₁.incoming ≠ []) : Answers (step s₁) (step s₂) := by
  match h₁ : s₁.incoming with
  | [] => exact absurd h₁ sent
  | .reset :: rest =>
    rw [step_of_reset h₁, step_of_reset (h.incoming.symm.trans h₁), h.draw]
    exact ⟨_, _, rfl, rfl, ⟨rfl, rfl, rfl⟩, rfl⟩
  | .request req :: rest =>
    have h₂ := h.incoming.symm.trans h₁
    cases hd : decode req with
    | instr i =>
      rw [step_of_instr h₁ hd, step_of_instr h₂ hd]
      exact (h.take rest).exec i
    | reject e =>
      rw [step_of_reject h₁ hd, step_of_reject h₂ hd]
      exact (h.take rest).respond _ _

end Sys2Proof.AgreeButWork

/-! ## The obligations of the state -/

namespace Sys2Proof.Proofs

open Machine

/-- Settles O3: every effect of an operation keeps `StateInv`, and so do the steps that run no operation. -/
theorem everyStepKeepsReadingInvariant : Obligations.EveryStepKeepsReadingInvariant :=
  fun _ _ inv h => inv.step h

/-- Settles O7: idle states stay as they are; any event is answered alike on both sides. -/
theorem workingRegistersAreUnobservable : Obligations.WorkingRegistersAreUnobservable := by
  intro s₁ s₂ h
  by_cases idle : s₁.incoming = []
  · exact ⟨s₁, s₂, step_of_idle idle, step_of_idle (h.incoming ▸ idle), h, fun sent => absurd idle sent⟩
  · obtain ⟨t₁, t₂, h₁, h₂, agree, same⟩ := h.step idle
    exact ⟨t₁, t₂, h₁, h₂, agree, fun _ => same⟩

/-- Settles O8, by the effect of the operation: the registers it writes, and what its updates leave alone. -/
theorem operationsWriteOnlyTheirRegisters : Obligations.OperationsWriteOnlyTheirRegisters := by
  intro i s t h
  cases Effect.of_exec h with
  | answer => simp
  | crcCompute => simp
  | crcVerify buf => simp [checkGroups_frame]
  | calLoad => simp
  | altSet => simp
  | convert => simp

/-- Settles O1, by the fields of the reset state. -/
theorem resetClearsFlagsAndSetsAltitude : Obligations.ResetClearsFlagsAndSetsAltitude :=
  ⟨fun _ _ => by simp, rfl⟩

/-- Settles O2: with `VALID = 0` and no response the invariant asks nothing. -/
theorem readingInvariantHoldsAtReset : Obligations.ReadingInvariantHoldsAtReset := StateInv.atReset

/-- Settles O5: the two cases of the step that run no operation. -/
theorem idleAndResetSteps : Obligations.IdleAndResetSteps :=
  ⟨fun _ => step_of_idle, fun _ _ => step_of_reset⟩

end Sys2Proof.Proofs

/-! # Proofs: byte order, the step of a request, running an operation again (20_memory.md) -/

namespace Sys2Proof

/-! ## Byte order (R33) -/

/-- Byte `k` of the `n` bytes of a number is its digit of weight `256^(n-1-k)`. -/
theorem beBytes_getElem? {n k : Nat} (v : Nat) (h : k < n) :
    (beBytes n v)[k]? = some (BitVec.ofNat 8 (v / 256 ^ (n - 1 - k))) := by
  induction n generalizing k with
  | zero => omega
  | succ n ih =>
    cases k with
    | zero => simp [beBytes]
    | succ k =>
      have exponent : n + 1 - 1 - (k + 1) = n - 1 - k := by omega
      rw [beBytes, List.getElem?_cons_succ, ih (by omega), exponent]

theorem be64_getElem? (v : F64) {k : Nat} (h : k < 8) :
    (be64 v)[k]? = some (v.extractLsb' (56 - 8 * k) 8) := by
  have weight : 256 ^ (8 - 1 - k) = 2 ^ (56 - 8 * k) := by
    rw [show 56 - 8 * k = 8 * (8 - 1 - k) by omega, Nat.pow_mul]
  rw [be64, beBytes_getElem? _ h, weight, BitVec.extractLsb', Nat.shiftRight_eq_div_pow]

theorem memRead_be64 (v : F64) : memRead (be64 v) 0 8 = v.toNat :=
  calc memRead (be64 v) 0 8
    _ = v.toNat % 256 ^ 8 := by simpa [be64] using memRead_beBytes [] [] 8 v.toNat
    _ = v.toNat := Nat.mod_eq_of_lt v.isLt

/-! ## The decoder reads well-formed operations only (R49, R53) -/

/-- CRC.VERIFY alone has the format whose length `MAXBUF` bounds. -/
theorem opTable_crcVerify_format : ∀ r ∈ opTable, r.op = .crcVerify → r.format = .B := by decide

theorem assemble_wellFormedFor {maxBuf : Option Nat} {row : OpRow} {payload : List Byte} (listed : row ∈ opTable)
    (fits : row.format.fits maxBuf payload.length = true) :
    (row.op.assemble payload).wellFormedFor maxBuf = true := by
  cases h : row.op with
  | crcVerify =>
    rw [opTable_crcVerify_format row listed h] at fits
    exact fits
  | _ => rfl

theorem wellFormedFor_of_decodeFor {maxBuf : Option Nat} {req : Frame} {i : Instr}
    (h : decodeFor maxBuf req = .instr i) : i.wellFormedFor maxBuf = true := by
  match req with
  | [] => simp [decodeFor] at h
  | code :: payload =>
    cases hrow : opRow code with
    | none => simp [decodeFor, hrow] at h
    | some row =>
      rw [decodeFor_cons hrow] at h
      split at h
      next fits =>
        cases h
        exact assemble_wellFormedFor (List.mem_of_find?_eq_some hrow) fits
      next => cases h

namespace Machine

/-! ## Running an operation again (R37) -/

/-- The response on the port is written and never read: an operation does the same whatever stood there. -/
@[simp] theorem exec_respond (i : Instr) (s : State) (st : Status) (bytes : List Byte) :
    exec i (s.respond st bytes) = exec i s := by
  cases i <;> rfl

/-- `CRCREG` after the loop of CRC.VERIFY: the checksum of the last group, or what stood there when there is none. -/
def lastCrc : List Byte → Byte → Byte
  | d0 :: d1 :: _ :: rest, _ => lastCrc rest (crc8 d0 d1)
  | _, crc => crc

theorem checkGroups_crcReg (buf : List Byte) (w : Work) : (checkGroups buf w).crcReg = lastCrc buf w.crcReg := by
  fun_induction checkGroups buf w with
  | case1 d0 d1 c rest w ih => exact ih
  | case2 w buf h => rw [lastCrc]; exact h

/-- A buffer with a group overwrites `CRCREG`, one without keeps it. -/
theorem lastCrc_lastCrc (buf : List Byte) (crc : Byte) : lastCrc buf (lastCrc buf crc) = lastCrc buf crc := by
  match buf with
  | [] | [_] | [_, _] => rfl
  | _ :: _ :: _ :: _ => rfl

/-- The loop of CRC.VERIFY in closed form. -/
theorem checkGroups_eq (buf : List Byte) (w : Work) :
    checkGroups buf w =
      { w with
        crcReg := lastCrc buf w.crcReg
        gidx := w.gidx + buf.length / 3
        okf := w.okf && groupsOk buf } := by
  obtain ⟨rawT, rawP, rawH, tfine⟩ := checkGroups_frame buf w
  rw [← checkGroups_crcReg, ← checkGroups_gidx, ← checkGroups_okf, ← rawT, ← rawP, ← rawH, ← tfine]

section Again

variable {s t : State}

theorem execCrcVerify_again {buf : List Byte} (h : exec (.crcVerify buf) s = .next t) :
    exec (.crcVerify buf) t = .next t := by
  have run := h
  simp only [exec, execCrcVerify_eq] at h
  split at h <;> cases h
  case isTrue => rwa [exec_respond]
  case isFalse whole =>
    rw [exec_respond]
    simp only [exec, execCrcVerify_eq, if_neg whole, setWork_work, checkGroups_eq, lastCrc_lastCrc]
    rfl

/-- CONVERT writes the registers it computes from before it reads them, and keeps the calibration. -/
theorem converted_converted (p q : BitVec 24) (r : BitVec 16) :
    (s.converted p q r).converted p q r = s.converted p q r := rfl

/-- Every operation but CAL.LOAD, run again on the state it left, leaves that state. -/
theorem exec_again {i : Instr} (hi : ∀ c, i ≠ .calLoad c) (h : exec i s = .next t) : exec i t = .next t := by
  cases Effect.of_exec h with
  | answer st bytes => rwa [exec_respond]
  | crcCompute | altSet => rfl
  | crcVerify => exact execCrcVerify_again h
  | calLoad c => exact absurd rfl (hi c)
  | convert p q r calibrated =>
    rw [exec_respond]
    simp [exec, execConvert, State.calibrated, converted_converted, calibrated]

/-! ## CAL.LOAD runs once (R86, R135) -/

theorem calLoad_of_calibrated (c : Coeffs) (calibrated : s.arch.calValid = true) :
    exec (.calLoad c) s = .next (answered s [0x83]) := if_pos calibrated

theorem calibrated_of_calLoad {c : Coeffs} (h : exec (.calLoad c) s = .next t) : t.arch.calValid = true := by
  simp only [exec, execCalLoad] at h
  split at h <;> cases h
  case isTrue calibrated => exact calibrated
  case isFalse => rfl

end Again

end Machine

/-! ## The obligations of the memory -/

namespace Proofs

open Machine

/-- Settles O9: no operation reads the response, and each one's writes, made twice, are the writes made once; a
CAL.LOAD leaves CALVALID set. -/
theorem operationsButCalLoadAreIdempotent : Obligations.OperationsButCalLoadAreIdempotent :=
  ⟨fun _ _ _ => exec_again, fun _ c' _ _ h => calLoad_of_calibrated c' (calibrated_of_calLoad h)⟩

/-- Settles O13, by the digits of a number in base 256 and the number they read back to. -/
theorem binarySixtyFourIsSentBigEndian : Obligations.BinarySixtyFourIsSentBigEndian :=
  fun v => ⟨be64_length v, fun _ => be64_getElem? v, by rw [memRead_be64, BitVec.ofNat_toNat, BitVec.setWidth_eq]⟩

/-- Settles O4: the decoder's length check is the check of well-formedness, and the step runs what it decodes. -/
theorem requestStepExecutesDecodedOperation : Obligations.RequestStepExecutesDecodedOperation :=
  fun _ _ _ _ sent decoded => ⟨wellFormedFor_of_decodeFor decoded, step_of_instr sent decoded⟩

end Proofs

end Sys2Proof

/-! # Proofs: the decoder and the encoder, the dropped bits, the pseudo-operations (30_encoding.md) -/

namespace Sys2Proof

/-! ## A field read from a payload, a field written to a frame (R33) -/

/-- Reading past the first bytes of a payload is reading the rest. -/
theorem memRead_append (pre rest : List Byte) (addr n : Nat) :
    memRead (pre ++ rest) (pre.length + addr) n = memRead rest addr n := by
  rw [memRead, memRead, List.drop_append, List.drop_eq_nil_of_le (by omega), List.nil_append,
    Nat.add_sub_cancel_left]

/-- A register of `8n` bits, written as `n` bytes into a payload, reads back as it was. -/
theorem ofNat_memRead_beBytes {w n addr : Nat} (hw : w = 8 * n) {v : BitVec w} {payload : List Byte}
    (pre rest : List Byte) (layout : payload = pre ++ (beBytes n v.toNat ++ rest)) (offset : pre.length = addr) :
    BitVec.ofNat w (memRead payload addr n) = v := by
  have range : 256 ^ n = 2 ^ w := by rw [hw, Nat.pow_mul]
  rw [layout, ← offset, memRead_beBytes, range, Nat.mod_eq_of_lt v.isLt, BitVec.ofNat_toNat, BitVec.setWidth_eq]

/-- `beBytes` from the last byte backwards. -/
theorem beBytes_succ (n v : Nat) : beBytes (n + 1) v = beBytes n (v / 256) ++ [BitVec.ofNat 8 v] := by
  induction n with
  | zero => simp [beBytes]
  | succ n ih => rw [beBytes, ih, beBytes, Nat.div_div_eq_div_mul, Nat.pow_succ']; rfl

/-- Only the low `n` bytes of a number are written. -/
theorem beBytes_mod (n v : Nat) : beBytes n (v % 256 ^ n) = beBytes n v := by
  induction n generalizing v with
  | zero => rfl
  | succ n ih =>
    have high : v % 256 ^ (n + 1) / 256 = v / 256 % 256 ^ n := by
      rw [Nat.pow_succ', Nat.mod_mul_right_div_self]
    have low : BitVec.ofNat 8 (v % 256 ^ (n + 1)) = BitVec.ofNat 8 v :=
      BitVec.eq_of_toNat_eq (Nat.mod_mod_of_dvd v (Dvd.intro_left _ rfl))
    rw [beBytes_succ, beBytes_succ, high, ih, low]

/-- The number a byte string reads as is written as that byte string. -/
theorem beBytes_foldl (l : List Byte) :
    beBytes l.length (l.foldl (fun acc b => 256 * acc + b.toNat) 0) = l := by
  induction l using List.reverseRecOn with
  | nil => rfl
  | append_singleton l b ih =>
    have high (acc : Nat) : (256 * acc + b.toNat) / 256 = acc := by have := b.isLt; omega
    have low (acc : Nat) : BitVec.ofNat 8 (256 * acc + b.toNat) = b :=
      BitVec.eq_of_toNat_eq (by have := b.isLt; rw [BitVec.toNat_ofNat]; omega)
    rw [List.length_append, List.length_singleton, List.foldl_append, List.foldl_cons, List.foldl_nil, beBytes_succ,
      high, low, ih]

/-- A field read into a register of `8n` bits is written as the `n` bytes it was read from. -/
theorem beBytes_memRead {w n addr : Nat} {payload : List Byte} (hw : w = 8 * n) (inside : addr + n ≤ payload.length) :
    beBytes n (BitVec.ofNat w (memRead payload addr n)).toNat = (payload.drop addr).take n := by
  have range : 256 ^ n = 2 ^ w := by rw [hw, Nat.pow_mul]
  have length : ((payload.drop addr).take n).length = n := by simp; omega
  have written := beBytes_foldl ((payload.drop addr).take n)
  rw [length] at written
  rw [BitVec.toNat_ofNat, ← range, beBytes_mod, memRead, written]

/-! ## The coefficients, two bytes each (R10, R46) -/

/-- Reading the two bytes at `2i` of a sequence of 16-bit registers gives register `i`, and zero beyond the last. -/
theorem ofNat_memRead_flatMap (l : List (BitVec 16)) (i : Nat) :
    BitVec.ofNat 16 (memRead (l.flatMap fun v => beBytes 2 v.toNat) (2 * i) 2) = l.getD i 0 := by
  induction l generalizing i with
  | nil => simp [memRead]
  | cons v l ih =>
    rw [List.flatMap_cons]
    cases i with
    | zero => exact ofNat_memRead_beBytes rfl [] _ rfl rfl
    | succ i =>
      have next : 2 * (i + 1) = (beBytes 2 v.toNat).length + 2 * i := by rw [beBytes_length]; omega
      rw [next, memRead_append, ih, List.getD_cons_succ]

theorem coeffs_ofFn_toList (c : Coeffs) : Coeffs.ofFn (fun i => c.toList.getD i 0) = c := rfl

theorem coeffs_toList_ofFn (f : Nat → BitVec 16) : (Coeffs.ofFn f).toList = (List.range 18).map f := rfl

/-- The first `k` pairs of a byte string, in order, are its first `2k` bytes. -/
theorem flatMap_range_pairs (l : List Byte) (k : Nat) :
    ((List.range k).flatMap fun i => (l.drop (2 * i)).take 2) = l.take (2 * k) := by
  induction k with
  | zero => simp
  | succ k ih => rw [List.range_succ, List.flatMap_append, ih, List.flatMap_singleton, Nat.mul_succ, List.take_add]

/-- A calibration set read from 36 bytes is written as those bytes. -/
theorem toList_ofFn_memRead_flatMap {payload : List Byte} (length : payload.length = 36) :
    ((Coeffs.ofFn fun i => BitVec.ofNat 16 (memRead payload (2 * i) 2)).toList.flatMap
      fun v => beBytes 2 v.toNat) = payload := by
  rw [coeffs_toList_ofFn, List.flatMap_map]
  calc (List.range 18).flatMap (fun i => beBytes 2 (BitVec.ofNat 16 (memRead payload (2 * i) 2)).toNat)
    _ = (List.range 18).flatMap (fun i => (payload.drop (2 * i)).take 2) :=
      List.flatMap_congr fun i hi => beBytes_memRead rfl (by have := List.mem_range.mp hi; omega)
    _ = payload := by rw [flatMap_range_pairs, List.take_of_length_le (by omega)]

/-! ## The rows of the opcode map (R50) -/

/-- A row found under an opcode stands in the map under that opcode. -/
theorem mem_opTable_of_opRow {code : Byte} {row : OpRow} (h : opRow code = some row) :
    row ∈ opTable ∧ row.code = code :=
  ⟨List.mem_of_find?_eq_some h, by simpa using List.find?_some h⟩

/-! ## Operand assembly undoes the encoder (R46, R47) -/

/-- Operand assembly undoes the encoder: the payload of an operation's frame gives the operation. -/
theorem assemble_of_encode {i : Instr} {code : Byte} {payload : List Byte} {row : OpRow}
    (sent : encode i = code :: payload) (known : opRow code = some row) : row.op.assemble payload = i := by
  cases i with
  | calLoad c =>
    cases sent; cases known
    simp only [Op.assemble, ofNat_memRead_flatMap, coeffs_ofFn_toList]
  | altSet v =>
    cases sent; cases known
    exact congrArg Instr.altSet (ofNat_memRead_beBytes rfl [] [] (List.append_nil _).symm rfl)
  | convert p t h =>
    cases sent; cases known
    simp only [Op.assemble, Instr.convert.injEq]
    exact ⟨ofNat_memRead_beBytes rfl [] (beBytes 3 t.toNat ++ beBytes 2 h.toNat) (List.append_assoc _ _ _) rfl,
      ofNat_memRead_beBytes rfl (beBytes 3 p.toNat) (beBytes 2 h.toNat) (List.append_assoc _ _ _) rfl,
      ofNat_memRead_beBytes rfl (beBytes 3 p.toNat ++ beBytes 3 t.toNat) [] (by rw [List.append_nil]) rfl⟩
  | crcCompute | crcVerify | rdT | rdP | rdPn | rdH | rdValid | rdDew | rdRho | rdSlp =>
    cases sent; cases known; rfl

open Laws.EncodeFits in
/-- The frame of every operation has the opcode and the length of its row. -/
theorem encodeFits : ∀ i, Statement i
  | .crcCompute b0 b1 => crcCompute b0 b1
  | .crcVerify buf => crcVerify buf
  | .calLoad c => calLoad c
  | .altSet v => altSet v
  | .convert p t h => convert p t h
  | .rdT => rdT
  | .rdP => rdP
  | .rdPn => rdPn
  | .rdH => rdH
  | .rdValid => rdValid
  | .rdDew => rdDew
  | .rdRho => rdRho
  | .rdSlp => rdSlp

theorem decodeFor_encode {maxBuf : Option Nat} {i : Instr} (wf : i.wellFormedFor maxBuf = true) :
    decodeFor maxBuf (encode i) = .instr i := by
  obtain ⟨code, payload, row, sent, known, fits⟩ := encodeFits i maxBuf
  rw [sent, decodeFor_cons known, fits, if_pos wf, assemble_of_encode sent known]

/-! ## The encoder undoes operand assembly (R46, R47) -/

theorem length_of_fits {maxBuf : Option Nat} {format : FrameFormat} {n k : Nat} (fits : format.fits maxBuf n = true)
    (fixed : format.payloadLength = some k) : n = k := by
  simpa [FrameFormat.fits, fixed] using fits

section Payload

variable {payload : List Byte}

theorem encode_assemble_crcCompute (length : payload.length = 2) :
    encode (Op.crcCompute.assemble payload) = 0x01 :: payload := by
  match payload, length with
  | [_, _], _ => rfl

theorem encode_assemble_calLoad (length : payload.length = 36) :
    encode (Op.calLoad.assemble payload) = 0x10 :: payload :=
  congrArg (List.cons 0x10) (toList_ofFn_memRead_flatMap length)

theorem encode_assemble_altSet (length : payload.length = 8) :
    encode (Op.altSet.assemble payload) = 0x11 :: payload := by
  simp only [Op.assemble, encode, be64]
  rw [beBytes_memRead rfl (by omega), List.drop_zero, List.take_of_length_le (by omega)]

theorem encode_assemble_convert (length : payload.length = 8) :
    encode (Op.convert.assemble payload) = 0x20 :: payload := by
  simp only [Op.assemble, encode]
  rw [beBytes_memRead rfl (by omega), beBytes_memRead rfl (by omega), beBytes_memRead rfl (by omega), List.drop_zero,
    ← List.take_add, ← List.take_add, List.take_of_length_le (by omega)]

/-- The operations without operands. -/
theorem encode_assemble_read {maxBuf : Option Nat} {op : Op} {code : Byte} (read : encode (op.assemble []) = [code])
    (fits : FrameFormat.Z.fits maxBuf payload.length = true) : encode (op.assemble payload) = code :: payload := by
  rw [List.eq_nil_of_length_eq_zero (length_of_fits fits rfl), read]

/-- The encoder undoes operand assembly, for a payload that fits the row of the opcode map. -/
theorem encode_assemble {maxBuf : Option Nat} :
    ∀ row ∈ opTable, row.format.fits maxBuf payload.length = true →
      encode (row.op.assemble payload) = row.code :: payload := by
  simp only [opTable, List.forall_mem_cons]
  exact ⟨fun fits => encode_assemble_crcCompute (length_of_fits fits rfl),
    fun _ => rfl,
    fun fits => encode_assemble_calLoad (length_of_fits fits rfl),
    fun fits => encode_assemble_altSet (length_of_fits fits rfl),
    fun fits => encode_assemble_convert (length_of_fits fits rfl),
    encode_assemble_read rfl, encode_assemble_read rfl, encode_assemble_read rfl, encode_assemble_read rfl,
    encode_assemble_read rfl, encode_assemble_read rfl, encode_assemble_read rfl, encode_assemble_read rfl,
    List.forall_mem_nil _⟩

end Payload

/-! ## The checks of the decoder in order (R49) -/

/-- The opcode map has no row for exactly the reserved ranges (R50, R51). -/
theorem opRow_eq_none_iff : ∀ code, opRow code = none ↔ reservedOpcode code = true := by decide +kernel

theorem bufferFits_iff (maxBuf : Option Nat) (n : Nat) :
    bufferFits maxBuf n = true ↔ ∀ m, maxBuf = some m → n ≤ m := by
  cases maxBuf <;> simp [bufferFits]

/-- The length rule of R133 is the format of the opcode's row. -/
theorem fits_iff_lengthFits (maxBuf : Option Nat) (n : Nat) :
    ∀ row ∈ opTable, row.format.fits maxBuf n = true ↔ lengthFits maxBuf row.code (n + 1) := by
  simp [opTable, FrameFormat.fits, FrameFormat.payloadLength, lengthFits, bufferFits_iff, Nat.add_comm 1]

/-- A frame the decoder accepts is the encoding of what it reads. -/
theorem encode_of_decodeFor {maxBuf : Option Nat} {req : Frame} {i : Instr} (h : decodeFor maxBuf req = .instr i) :
    encode i = req := by
  match req with
  | [] => cases h
  | code :: payload =>
    cases known : opRow code with
    | none => simp [decodeFor, known] at h
    | some row =>
      obtain ⟨listed, rfl⟩ := mem_opTable_of_opRow known
      rw [decodeFor_cons known] at h
      split at h <;> cases h
      next fits => exact encode_assemble row listed fits

theorem decodeFor_of_reserved {code : Byte} (reserved : reservedOpcode code = true) (maxBuf : Option Nat)
    (payload : List Byte) : decodeFor maxBuf (code :: payload) = .reject (.reservedOpcode code) := by
  simp [decodeFor, (opRow_eq_none_iff code).mpr reserved]

/-- An opcode that is not reserved has a row, and the decoder checks the length rule of R133 for it. -/
theorem decodeFor_of_legal {code : Byte} (legal : reservedOpcode code = false) (maxBuf : Option Nat)
    (payload : List Byte) :
    (¬ lengthFits maxBuf code (payload.length + 1) →
      decodeFor maxBuf (code :: payload) = .reject (.badLength code (payload.length + 1))) ∧
    (lengthFits maxBuf code (payload.length + 1) → ∃ i, decodeFor maxBuf (code :: payload) = .instr i) := by
  cases known : opRow code with
  | none => simp [(opRow_eq_none_iff code).mp known] at legal
  | some row =>
    obtain ⟨listed, rfl⟩ := mem_opTable_of_opRow known
    rw [decodeFor_cons known, ← fits_iff_lengthFits maxBuf payload.length row listed]
    exact ⟨fun short => if_neg short, fun fits => ⟨_, if_pos fits⟩⟩

/-- For this unit, whose `MAXBUF` bounds nothing, the decoder inverts the encoder. -/
theorem decode_encode (i : Instr) : decode (encode i) = .instr i :=
  decodeFor_encode (by cases i <;> rfl)

namespace Machine

/-! ## The dropped bits (R54) -/

/-- The top 20 bits of a 24-bit field read from three bytes do not depend on the low 4 bits of the third. -/
theorem top20_memRead (b₂ b₁ : Byte) {b₀ b₀' : Byte} (same : b₀ >>> 4 = b₀' >>> 4) :
    top20 (BitVec.ofNat 24 (memRead [b₂, b₁, b₀] 0 3)) = top20 (BitVec.ofNat 24 (memRead [b₂, b₁, b₀'] 0 3)) := by
  have nibble : b₀.toNat / 2 ^ 4 = b₀'.toNat / 2 ^ 4 := by
    simpa [Nat.shiftRight_eq_div_pow] using congrArg BitVec.toNat same
  apply BitVec.eq_of_toNat_eq
  simp only [top20, memRead, List.drop_zero, List.take, List.foldl, BitVec.extractLsb'_toNat, BitVec.toNat_ofNat,
    Nat.shiftRight_eq_div_pow]
  omega

/-- CONVERT reads its first two fields through their top 20 bits alone. -/
theorem execConvert_congr {p p' q q' : BitVec 24} (hp : top20 p = top20 p') (hq : top20 q = top20 q') (h : BitVec 16)
    (s : State) : execConvert p q h s = execConvert p' q' h s := by
  have unpack : s.unpackRaw p q h = s.unpackRaw p' q' h := by rw [State.unpackRaw, State.unpackRaw, hp, hq]
  rw [execConvert, execConvert, State.converted, State.converted, unpack]

/-! ## The pseudo-operations (R57) -/

@[simp] theorem top20_append_zero (raw : BitVec 20) : top20 (raw ++ 0#4) = raw :=
  BitVec.extractLsb'_append_eq_left

section Raw

variable (s : State) (p q : BitVec 24) (h : BitVec 16)

@[simp] theorem converted_rawP : (s.converted p q h).work.rawP = top20 p := rfl
@[simp] theorem converted_rawT : (s.converted p q h).work.rawT = top20 q := rfl
@[simp] theorem converted_rawH : (s.converted p q h).work.rawH = h := rfl

end Raw

/-- CRC.VERIFY of one group answers whether its third byte is the CRC of the first two (R64). -/
theorem execCrcVerify_group (d0 d1 c : Byte) (s : State) :
    ∃ t, exec (.crcVerify [d0, d1, c]) s = .next t ∧
      t.response = some [0x00, if c = crc8 d0 d1 then 0x01 else 0x00] := by
  refine ⟨_, (execCrcVerify_eq [d0, d1, c] s).trans (if_neg (by simp)), ?_⟩
  simp [groupsOk, groupOk, boolByte, Status.code]

end Machine

/-! ## The obligations of the encoding -/

namespace Proofs

open Machine

/-- Settles O10: every frame has its row and its length, and operand assembly undoes the encoder field by field. -/
theorem decodeOfEncodeIsIdentity : Obligations.DecodeOfEncodeIsIdentity :=
  fun _ _ wf => decodeFor_encode wf

/-- Settles O11: the length check is the check of well-formedness, and the encoder writes back the bytes each
field was read from. -/
theorem encodeOfDecodeIsIdentity : Obligations.EncodeOfDecodeIsIdentity :=
  fun _ _ _ h => ⟨wellFormedFor_of_decodeFor h, encode_of_decodeFor h⟩

/-- Settles O14: the opcode map is the complement of the reserved ranges, a row's format is the length rule of its
opcode, and the first byte comes back by the encoder. -/
theorem decoderChecksInOrder : Obligations.DecoderChecksInOrder := by
  refine ⟨⟨rfl, fun _ => rfl, fun _ _ => rfl⟩, fun maxBuf req => ⟨?empty, ?opcode⟩⟩
  case empty => rintro rfl; rfl
  case opcode =>
    rintro code payload rfl
    refine ⟨fun reserved => decodeFor_of_reserved reserved maxBuf payload,
      fun legal => (decodeFor_of_legal legal maxBuf payload).1, fun legal fits => ?_⟩
    obtain ⟨i, decoded⟩ := (decodeFor_of_legal legal maxBuf payload).2 fits
    exact ⟨i, decoded, by rw [encode_of_decodeFor decoded, List.head?_cons]⟩

/-- Settles O39: both frames decode to a CONVERT, whose fields agree in their top 20 bits. -/
theorem convertIgnoresDroppedBits : Obligations.ConvertIgnoresDroppedBits := by
  intro p₂ p₁ p₀ t₂ t₁ t₀ h₁ h₀ p₀' t₀' s rest sameP sameT
  rw [step_of_instr rfl rfl, step_of_instr rfl rfl]
  exact execConvert_congr (top20_memRead p₂ p₁ sameP) (top20_memRead t₂ t₁ sameT) _ _

/-- Settles O40: CRC.VERIFY of one group compares its third byte with the CRC that CRC.COMPUTE answers; dropping
the four zero bits gives the raw values back. -/
theorem pseudoOperationsDoWhatTheyAreFor : Obligations.PseudoOperationsDoWhatTheyAreFor := by
  refine ⟨fun d0 d1 s => ⟨crc8 d0 d1, _, rfl, rfl, execCrcVerify_group d0 d1⟩, ?_⟩
  intro rawP rawT rawH s calibrated
  exact ⟨_, if_pos calibrated, by simp, by simp, by simp⟩

/-- Settles O12: each frame is, byte for byte, the encoding of its operation. -/
theorem writtenOutFramesDecode : Obligations.WrittenOutFramesDecode :=
  ⟨decode_encode (.crcCompute 0xBE 0xEF), decode_encode (.crcVerify [0xBE, 0xEF, 0x92]),
    decode_encode (.altSet 0x405E000000000000), decode_encode (.convert 0x655AC0 0x7EED00 0x7530),
    decode_encode .rdT, decode_encode .rdSlp⟩

/-- Settles O15: the decoder rejects the empty frame first, and the step answers with its error. -/
theorem emptyFrameRaisesErrFormat : Obligations.EmptyFrameRaisesErrFormat :=
  fun _ _ sent => step_of_reject sent rfl

end Proofs

end Sys2Proof

/-! # Proofs: the CRC block (40_crc.md) -/

namespace Sys2Proof

/-! ## Bit patterns as polynomials over GF(2) -/

section BitPolynomials

open Polynomial

variable {m n : Nat}

/-- The positions of the one-bits of a pattern. -/
def oneBits (v : BitVec n) : Finset Nat := (Finset.range n).filter fun i => v.getLsbD i

@[simp] theorem mem_oneBits {v : BitVec n} {i : Nat} : i ∈ oneBits v ↔ v.getLsbD i = true := by
  simpa [oneBits] using BitVec.lt_of_getLsbD

theorem weight_eq_card (v : BitVec n) : weight v = (oneBits v).card := by
  have same : ((List.range n).filter fun i => v.getLsbD i).toFinset = oneBits v := by ext i; simp [oneBits]
  rw [weight, ← same, List.toFinset_card_of_nodup (List.nodup_range.filter _)]

/-- A bit pattern as a polynomial over GF(2), bit `i` the coefficient of `X ^ i` (R62). -/
noncomputable def bitPoly (v : BitVec n) : (ZMod 2)[X] :=
  ∑ i ∈ Finset.range n, if v.getLsbD i then X ^ i else 0

theorem bitPoly_eq_sum (v : BitVec n) : bitPoly v = ∑ i ∈ oneBits v, X ^ i :=
  (Finset.sum_filter _ _).symm

@[simp] theorem coeff_bitPoly (v : BitVec n) (i : Nat) :
    (bitPoly v).coeff i = if v.getLsbD i then 1 else 0 := by
  simp [bitPoly_eq_sum, coeff_X_pow]

theorem bitPoly_injective : Function.Injective (bitPoly (n := n)) := by
  intro v w same
  refine BitVec.eq_of_getLsbD_eq fun i _ => ?_
  have := congrArg (coeff · i) same
  simp only [coeff_bitPoly] at this
  grind

@[simp] theorem bitPoly_zero : bitPoly 0#n = 0 := by simp [bitPoly]

theorem bitPoly_xor (v w : BitVec n) : bitPoly (v ^^^ w) = bitPoly v + bitPoly w := by
  ext i
  simp only [coeff_bitPoly, coeff_add, BitVec.getLsbD_xor]
  cases v.getLsbD i <;> cases w.getLsbD i <;> decide

theorem bitPoly_append (v : BitVec n) (w : BitVec m) : bitPoly (v ++ w) = bitPoly v * X ^ m + bitPoly w := by
  ext i
  simp only [coeff_bitPoly, coeff_add, coeff_mul_X_pow', BitVec.getLsbD_append]
  by_cases low : i < m
  · simp [low, Nat.not_le.mpr low]
  · simp [low, Nat.not_lt.mp low]

theorem bitPoly_shiftLeft_one (v : BitVec (n + 1)) :
    bitPoly (v <<< 1) + (if v.getLsbD n then X ^ (n + 1) else 0) = bitPoly v * X := by
  ext i
  cases i with
  | zero => simp [apply_ite (coeff · 0), coeff_X_pow]
  | succ i =>
    simp only [coeff_add, coeff_mul_X, coeff_bitPoly, apply_ite (coeff · (i + 1)), coeff_X_pow, coeff_zero]
    rcases Nat.lt_trichotomy i n with h | rfl | h
    · simp [h, h.ne, BitVec.getLsbD_eq_getElem (Nat.lt_succ_of_lt h)]
    · simp
    · simp [h.ne', show ¬ i < n by omega, BitVec.getLsbD_of_ge v i h]

theorem degree_bitPoly_lt (v : BitVec n) : (bitPoly v).degree < n := by
  rw [degree_lt_iff_coeff_zero]
  intro i le
  rw [coeff_bitPoly, BitVec.getLsbD_of_ge v i le, if_neg Bool.false_ne_true]

/-- The weight modulo 2 is the value of the polynomial at 1. -/
theorem eval_one_bitPoly (v : BitVec n) : (bitPoly v).eval 1 = weight v := by
  simp [bitPoly_eq_sum, eval_finsetSum, weight_eq_card]

theorem weight_append (v : BitVec n) (w : BitVec m) : weight (v ++ w) = weight v + weight w := by
  have split : List.range (n + m) = List.range m ++ (List.range n).map (m + ·) := by rw [Nat.add_comm, List.range_add]
  have low : ∀ i ∈ List.range m, (v ++ w).getLsbD i = w.getLsbD i := fun i mem => by
    rw [BitVec.getLsbD_append, if_pos (List.mem_range.mp mem)]
  have high : ∀ i ∈ List.range n, ((fun i => (v ++ w).getLsbD i) ∘ (m + ·)) i = v.getLsbD i := fun i _ => by
    simp [BitVec.getLsbD_append]
  rw [weight, split, List.filter_append, List.length_append, List.filter_map, List.length_map, List.filter_congr low,
    List.filter_congr high, Nat.add_comm]
  rfl

end BitPolynomials

namespace Machine

/-! ## The CRC as a remainder (R60 to R62) -/

section Remainder

open Polynomial

/-- The generator polynomial of R60. -/
noncomputable def generator : (ZMod 2)[X] := X ^ 8 + X ^ 5 + X ^ 4 + 1

theorem degree_generator : generator.degree = 8 := by
  rw [generator]; compute_degree!

theorem generator_monic : generator.Monic := by
  rw [generator]; monicity!

theorem byte_mod_generator (b : Byte) : bitPoly b %ₘ generator = bitPoly b :=
  (modByMonic_eq_self_iff generator_monic).mpr (degree_generator ▸ degree_bitPoly_lt b)

/-- The step of R61 subtracts the generator when the bit shifted out is 1. -/
theorem bitPoly_crcShift_add (c : Byte) :
    bitPoly (crcShift c) + (if c.getLsbD 7 then generator else 0) = bitPoly c * X := by
  have low : bitPoly (0x31 : Byte) = X ^ 5 + X ^ 4 + 1 := by simp [bitPoly, Finset.sum_range_succ]; ring
  rw [← bitPoly_shiftLeft_one, crcShift]
  split
  · rw [bitPoly_xor, low, generator]
    linear_combination CharTwo.add_self_eq_zero (X ^ 5 + X ^ 4 + 1 : (ZMod 2)[X])
  · rfl

/-- The step of R61 is multiplication by `X`, modulo the generator. -/
theorem bitPoly_crcShift (c : Byte) : bitPoly (crcShift c) = (bitPoly c * X) %ₘ generator := by
  rw [← bitPoly_crcShift_add, add_modByMonic, byte_mod_generator]
  split
  · rw [modByMonic_self generator_monic, add_zero]
  · rw [zero_modByMonic, add_zero]

/-- A factor may be reduced before the product is. -/
theorem remainder_mul (p q : (ZMod 2)[X]) : (p %ₘ generator * q) %ₘ generator = (p * q) %ₘ generator := by
  apply modByMonic_eq_of_dvd_sub generator_monic
  rw [← sub_mul]
  exact (dvd_modByMonic_sub p generator).mul_right q

theorem bitPoly_crcShifts (k : Nat) (c : Byte) : bitPoly (crcShifts k c) = (bitPoly c * X ^ k) %ₘ generator := by
  induction k generalizing c with
  | zero => simp [crcShifts, byte_mod_generator]
  | succ k ih => rw [crcShifts, ih, bitPoly_crcShift, remainder_mul, mul_assoc, ← pow_succ']

theorem bitPoly_crcByte (c b : Byte) : bitPoly (crcByte c b) = (bitPoly (c ^^^ b) * X ^ 8) %ₘ generator :=
  bitPoly_crcShifts 8 _

theorem bitPoly_crc8 (b0 b1 : Byte) :
    bitPoly (crc8 b0 b1) = (bitPoly ((b0 ++ b1 : BitVec 16) ^^^ 0xFF00#16) * X ^ 8) %ₘ generator := by
  have inverted : (b0 ++ b1 : BitVec 16) ^^^ 0xFF00#16 = (0xFF#8 ^^^ b0) ++ b1 := by
    rw [show 0xFF00#16 = 0xFF#8 ++ 0x00#8 from rfl, BitVec.xor_append]
    simp [BitVec.xor_comm]
  rw [crc8, bitPoly_crcByte, bitPoly_xor, bitPoly_crcByte, inverted, bitPoly_append, add_mul, add_modByMonic,
    remainder_mul, ← add_modByMonic, ← add_mul]
  rfl

/-! ## The error patterns a group check lets pass -/

/-- The generator shares no factor with `X`. -/
theorem isCoprime_generator_X_pow (k : Nat) : IsCoprime generator (X ^ k) := by
  have coprime : IsCoprime generator X := ⟨1, -(X ^ 7 + X ^ 4 + X ^ 3), by rw [generator]; ring⟩
  exact coprime.pow_right

/-- The generator divides no pattern of at most 8 consecutive bits but zero. -/
theorem eq_zero_of_generator_dvd {b : Byte} {k : Nat} (h : generator ∣ bitPoly b * X ^ k) : b = 0 := by
  have divides : generator ∣ bitPoly b := (isCoprime_generator_X_pow k).dvd_of_dvd_mul_right h
  rw [← modByMonic_eq_zero_iff_dvd generator_monic, byte_mod_generator, ← bitPoly_zero] at divides
  exact bitPoly_injective divides

theorem weight_even_of_generator_dvd {n : Nat} {e : BitVec n} (h : generator ∣ bitPoly e) : Even (weight e) := by
  have root : generator.eval 1 = 0 := by
    simp only [generator, eval_add, eval_pow, eval_X, eval_one, one_pow]
    decide
  rw [← ZMod.natCast_eq_zero_iff_even, ← eval_one_bitPoly]
  exact eval_eq_zero_of_dvd_of_eval_eq_zero h root

/-- `X` has an order above 23 modulo the generator. -/
theorem not_generator_dvd_X_pow_add_one {k : Nat} (pos : 0 < k) (lt : k < 24) : ¬ generator ∣ X ^ k + 1 := by
  have order : ∀ k < 24, 0 < k → crcShifts k 1 ≠ 1 := by decide
  intro h
  refine order k lt pos (bitPoly_injective ?_)
  have one : bitPoly (1 : Byte) = 1 := by simp [bitPoly]
  rw [bitPoly_crcShifts, one, one_mul, ← one, ← byte_mod_generator 1, one]
  apply modByMonic_eq_of_dvd_sub generator_monic
  rwa [CharTwo.sub_eq_add]

theorem not_generator_dvd_two_bits {i j : Nat} (ne : i ≠ j) (hi : i < 24) (hj : j < 24) :
    ¬ generator ∣ X ^ i + X ^ j := by
  wlog lt : i < j generalizing i j
  · rw [add_comm]; exact this ne.symm hj hi (by omega)
  intro h
  have factored : (X ^ i + X ^ j : (ZMod 2)[X]) = (X ^ (j - i) + 1) * X ^ i := by
    rw [add_mul, ← pow_add, Nat.sub_add_cancel lt.le, one_mul, add_comm]
  rw [factored] at h
  exact not_generator_dvd_X_pow_add_one (by omega) (by omega) ((isCoprime_generator_X_pow i).dvd_of_dvd_mul_right h)

/-- Minimum distance 4 (law L-4): a non-zero multiple of the generator within a group has at least 4 terms. -/
theorem four_le_weight_of_generator_dvd {e : BitVec 24} (h : generator ∣ bitPoly e) (ne : e ≠ 0) : 4 ≤ weight e := by
  have even := weight_even_of_generator_dvd h
  have not_zero : weight e ≠ 0 := fun zero => ne <| bitPoly_injective <| by
    rw [weight_eq_card, Finset.card_eq_zero] at zero
    rw [bitPoly_eq_sum, zero]
    simp
  have not_two : weight e ≠ 2 := fun two => by
    rw [weight_eq_card, Finset.card_eq_two] at two
    obtain ⟨i, j, hij, bits⟩ := two
    have lt : ∀ k ∈ oneBits e, k < 24 := fun k mem => BitVec.lt_of_getLsbD (mem_oneBits.mp mem)
    have hi : i < 24 := lt i (by simp [bits])
    have hj : j < 24 := lt j (by simp [bits])
    rw [bitPoly_eq_sum, bits, Finset.sum_pair hij] at h
    exact not_generator_dvd_two_bits hij hi hj h
  obtain ⟨k, half⟩ := even
  omega

/-- A pattern confined to the 8 bits from `k` on is a byte times `X ^ k`. -/
theorem bitPoly_of_burst {n k : Nat} {e : BitVec n} (burst : ∀ i, e.getLsbD i = true → k ≤ i ∧ i < k + 8) :
    bitPoly e = bitPoly (e.extractLsb' k 8) * X ^ k := by
  ext i
  rw [coeff_mul_X_pow', coeff_bitPoly, coeff_bitPoly, BitVec.getLsbD_extractLsb']
  have := burst i
  grind

theorem not_generator_dvd_of_burst {n k : Nat} {e : BitVec n} (ne : e ≠ 0)
    (burst : ∀ i, e.getLsbD i = true → k ≤ i ∧ i < k + 8) : ¬ generator ∣ bitPoly e := by
  rw [bitPoly_of_burst burst]
  intro h
  refine ne (bitPoly_injective ?_)
  rw [bitPoly_of_burst burst, eq_zero_of_generator_dvd h]
  simp

/-! ## Two words and their CRC bytes -/

/-- The difference of two CRC bytes is the remainder of the difference of the words: the initial value drops out. -/
theorem bitPoly_crc8_xor_crc8 (a b c d : Byte) :
    bitPoly (crc8 a b ^^^ crc8 c d) = (bitPoly ((a ^^^ c) ++ (b ^^^ d)) * X ^ 8) %ₘ generator := by
  have initial (v w f : BitVec 16) : (v ^^^ f) ^^^ (w ^^^ f) = v ^^^ w := by
    rw [BitVec.xor_comm w f, BitVec.xor_assoc, ← BitVec.xor_assoc f, BitVec.xor_self, BitVec.zero_xor]
  rw [bitPoly_xor, bitPoly_crc8, bitPoly_crc8, ← add_modByMonic, ← add_mul, ← bitPoly_xor, initial,
    ← BitVec.xor_append]

/-- A word with its CRC byte, as one 24-bit pattern. -/
def groupWord (b0 b1 : Byte) : BitVec 24 := b0 ++ b1 ++ crc8 b0 b1

theorem groupWord_xor_groupWord (a b c d : Byte) :
    groupWord a b ^^^ groupWord c d = (a ^^^ c) ++ (b ^^^ d) ++ (crc8 a b ^^^ crc8 c d) := by
  rw [groupWord, groupWord, BitVec.xor_append, BitVec.xor_append]

theorem groupWord_inj {a b c d : Byte} (h : groupWord a b = groupWord c d) : a = c ∧ b = d := by
  have word : (a ++ b : BitVec 16) = c ++ d := by
    simpa only [groupWord, BitVec.extractLsb'_append_eq_left] using congrArg (BitVec.extractLsb' 8 16) h
  constructor
  · simpa only [BitVec.extractLsb'_append_eq_left] using congrArg (BitVec.extractLsb' 8 8) word
  · simpa only [BitVec.extractLsb'_append_eq_right] using congrArg (BitVec.extractLsb' 0 8) word

/-- Two valid groups differ by a multiple of the generator. -/
theorem generator_dvd_groupWord_xor_groupWord (a b c d : Byte) :
    generator ∣ bitPoly (groupWord a b ^^^ groupWord c d) := by
  rw [groupWord_xor_groupWord, bitPoly_append, bitPoly_crc8_xor_crc8, add_comm, ← CharTwo.sub_eq_add]
  exact dvd_modByMonic_sub _ _

/-- What CRC.VERIFY accepts as one group is a word with its CRC byte. -/
theorem eq_groupWord {v : BitVec 24} (valid : v.extractLsb' 0 8 = crc8 (v.extractLsb' 16 8) (v.extractLsb' 8 8)) :
    v = groupWord (v.extractLsb' 16 8) (v.extractLsb' 8 8) := by
  rw [groupWord, ← valid]
  ext i hi
  simp only [← BitVec.getLsbD_eq_getElem, BitVec.getLsbD_append, BitVec.getLsbD_extractLsb']
  grind

/-- An error that is no multiple of the generator is detected. -/
theorem verify_detects (b0 b1 : Byte) {e : BitVec 24} (undivided : ¬ generator ∣ bitPoly e) (s : State) :
    ∃ t, exec (.crcVerify (groupBytes (groupWord b0 b1 ^^^ e))) s = .next t ∧ t.response = some [0x00, 0x00] := by
  obtain ⟨t, run, answer⟩ := execCrcVerify_group _ _ ((groupWord b0 b1 ^^^ e).extractLsb' 0 8) s
  refine ⟨t, run, answer.trans ?_⟩
  rw [if_neg fun valid => undivided ?_]
  have e_eq : e = groupWord b0 b1 ^^^ (groupWord b0 b1 ^^^ e) := by rw [← BitVec.xor_assoc]; simp
  rw [e_eq, eq_groupWord valid]
  exact generator_dvd_groupWord_xor_groupWord _ _ _ _

/-- Words with the same CRC byte differ by a multiple of the generator. -/
theorem generator_dvd_of_crc8_eq {a b c d : Byte} (same : crc8 a b = crc8 c d) :
    generator ∣ (bitPoly (a ^^^ c) * X ^ 8 + bitPoly (b ^^^ d)) * X ^ 8 := by
  rw [← bitPoly_append, ← modByMonic_eq_zero_iff_dvd generator_monic, ← bitPoly_crc8_xor_crc8, same, BitVec.xor_self,
    bitPoly_zero]

theorem verify_detects_odd (b0 b1 : Byte) {e : BitVec 24} (odd : weight e % 2 = 1) (s : State) :
    ∃ t, exec (.crcVerify (groupBytes (groupWord b0 b1 ^^^ e))) s = .next t ∧ t.response = some [0x00, 0x00] := by
  refine verify_detects b0 b1 (fun divides => ?_) s
  obtain ⟨k, half⟩ := weight_even_of_generator_dvd divides
  omega

theorem crc8_injective_right (b0 : Byte) : Function.Injective (crc8 b0) := by
  intro b b' same
  have divides := generator_dvd_of_crc8_eq same
  rw [BitVec.xor_self, bitPoly_zero, zero_mul, zero_add] at divides
  exact BitVec.xor_eq_zero_iff.mp (eq_zero_of_generator_dvd divides)

theorem crc8_injective_left (b1 : Byte) : Function.Injective (crc8 · b1) := by
  intro b b' same
  have divides := generator_dvd_of_crc8_eq same
  rw [BitVec.xor_self, bitPoly_zero, add_zero, mul_assoc, ← pow_add] at divides
  exact BitVec.xor_eq_zero_iff.mp (eq_zero_of_generator_dvd divides)

theorem crc8_xor_xor (a b c d : Byte) : crc8 (a ^^^ c) (b ^^^ d) = crc8 a b ^^^ crc8 c d ^^^ 0x81 := by
  have zero : crc8 0 0 = 0x81 := by decide +kernel
  have same : crc8 (a ^^^ c) (b ^^^ d) ^^^ crc8 c d = crc8 a b ^^^ crc8 0 0 := bitPoly_injective <| by
    rw [bitPoly_crc8_xor_crc8, bitPoly_crc8_xor_crc8]
    simp
  rw [← zero, BitVec.xor_assoc, BitVec.xor_comm (crc8 c d), ← BitVec.xor_assoc, ← same, BitVec.xor_assoc,
    BitVec.xor_self, BitVec.xor_zero]

end Remainder

/-! ## The equivalent forms of R62 -/

theorem crcShifts_succ_eq_crcShift (k : Nat) (c : Byte) : crcShifts (k + 1) c = crcShift (crcShifts k c) := by
  induction k generalizing c with
  | zero => rfl
  | succ k ih => rw [crcShifts, ih, crcShifts]

/-- A serial step on a register that still lacks the message bits `z` takes the bit of `z` it needs. -/
theorem serialStep_xor (c z : Byte) : serialStep (c ^^^ z) (z.getLsbD 7) = crcShift c ^^^ z <<< 1 := by
  have feedback : ((c ^^^ z).getLsbD 7 ^^ z.getLsbD 7) = c.getLsbD 7 := by simp
  rw [serialStep, crcShift, feedback, BitVec.shiftLeft_xor_distrib]
  split
  · rw [BitVec.xor_assoc, BitVec.xor_comm (z <<< 1), BitVec.xor_assoc]
  · rfl

/-- After `k` serial steps the register is the one of R62, but for the message bits that have not come in yet. -/
theorem foldl_serialStep (c b : Byte) {k : Nat} (le : k ≤ 8) :
    ((List.range k).map fun i => b.getLsbD (7 - i)).foldl serialStep c = crcShifts k (c ^^^ b) ^^^ b <<< k := by
  induction k with
  | zero => simp [crcShifts]
  | succ k ih =>
    have next : b.getLsbD (7 - k) = (b <<< k).getLsbD 7 := by
      rw [BitVec.getLsbD_shiftLeft, decide_eq_true (by omega), decide_eq_false (by omega), Bool.not_false,
        Bool.true_and, Bool.true_and]
    rw [List.range_succ, List.map_append, List.foldl_append, ih (by omega), List.map_singleton, List.foldl_cons,
      List.foldl_nil, next, serialStep_xor, ← crcShifts_succ_eq_crcShift, ← BitVec.shiftLeft_add]

theorem foldl_serialStep_byte (c b : Byte) :
    ((List.range 8).map fun i => b.getLsbD (7 - i)).foldl serialStep c = crcByte c b := by
  rw [foldl_serialStep c b le_rfl, BitVec.shiftLeft_eq_zero le_rfl, BitVec.xor_zero, crcByte]

theorem map_getLsbD_append (b0 b1 : Byte) :
    ((List.range 16).map fun i => (b0 ++ b1 : BitVec 16).getLsbD (15 - i)) =
      ((List.range 8).map fun i => b0.getLsbD (7 - i)) ++ (List.range 8).map fun i => b1.getLsbD (7 - i) := by
  rw [show 16 = 8 + 8 from rfl, List.range_add, List.map_append, List.map_map]
  congr 1
  · refine List.map_congr_left fun i mem => ?_
    have lt := List.mem_range.mp mem
    rw [BitVec.getLsbD_append, if_neg (by omega)]
    congr 1
    omega
  · refine List.map_congr_left fun i mem => ?_
    rw [Function.comp_apply, BitVec.getLsbD_append, if_pos (by omega)]
    congr 1
    omega

theorem crcTable_eq_map : crcTable = (List.range 256).map fun i => crcByte 0 (BitVec.ofNat 8 i) := by decide +kernel

theorem crcTable_getElem? (x : Byte) : crcTable[x.toNat]? = some (crcShifts 8 x) := by
  simp [crcTable_eq_map, List.getElem?_range x.isLt, crcByte]

theorem crcTable_getD (x : Byte) : crcTable.getD x.toNat 0 = crcShifts 8 x := by
  rw [List.getD_eq_getElem?_getD, crcTable_getElem?, Option.getD_some]

/-- R61 bit by bit: a shift, and the feedback into the places of the generator's terms. -/
theorem getLsbD_crcShift (c : Byte) (i : Nat) :
    (crcShift c).getLsbD i =
      (decide (0 < i ∧ i < 8) && c.getLsbD (i - 1) ^^ c.getLsbD 7 && (0x31 : Byte).getLsbD i) := by
  have shift : (c <<< 1).getLsbD i = (decide (0 < i ∧ i < 8) && c.getLsbD (i - 1)) := by
    cases i <;> simp
  rw [crcShift]
  cases c.getLsbD 7
  · simp [shift]
  · simp [shift]

/-! ## What CRC.VERIFY answers (R65 to R68) -/

/-- The verdict of R65 on a buffer. -/
def verdict (buf : List Byte) : Bool := buf.length % 3 == 0 && groupsOk buf

theorem verdict_of_whole {buf : List Byte} (whole : buf.length % 3 = 0) : verdict buf = groupsOk buf := by
  simp [verdict, whole]

theorem verdict_of_not_whole {buf : List Byte} (ragged : buf.length % 3 ≠ 0) : verdict buf = false := by
  simp [verdict, ragged]

/-- CRC.VERIFY answers the verdict; the working registers it leaves are those of its loop, or those it found. -/
theorem exec_crcVerify (buf : List Byte) (s : State) :
    exec (.crcVerify buf) s =
      .next ((s.setWork (if buf.length % 3 = 0 then checkGroups buf { s.work with okf := true, gidx := 0 }
        else s.work)).respond .ok [boolByte (verdict buf)]) := by
  rw [exec, execCrcVerify_eq]
  by_cases whole : buf.length % 3 = 0
  · rw [if_neg (not_not_intro whole), if_pos whole, verdict_of_whole whole]
  · rw [if_pos whole, if_neg whole, verdict_of_not_whole whole]
    rfl

/-- The response of CRC.VERIFY. -/
theorem crcVerify_answer (buf : List Byte) (s : State) :
    ∃ t, exec (.crcVerify buf) s = .next t ∧ t.response = some [0x00, if verdict buf then 0x01 else 0x00] ∧
      t.arch = s.arch :=
  ⟨_, exec_crcVerify buf s, rfl, rfl⟩

/-- A buffer that does not begin with a group has at most two bytes. -/
theorem length_lt_three {buf : List Byte} (short : ∀ d0 d1 c rest, buf = d0 :: d1 :: c :: rest → False) :
    buf.length < 3 := by
  match buf with
  | [] | [_] | [_, _] => simp
  | d0 :: d1 :: c :: rest => exact absurd rfl (short d0 d1 c rest)

/-- The groups of a buffer, by index. -/
theorem groupsOk_iff (buf : List Byte) :
    groupsOk buf = true ↔ ∀ g, g < buf.length / 3 →
      buf.getD (3 * g + 2) 0 = crc8 (buf.getD (3 * g) 0) (buf.getD (3 * g + 1) 0) := by
  fun_induction groupsOk buf with
  | case1 d0 d1 c rest ih =>
    have groups : (d0 :: d1 :: c :: rest).length / 3 = rest.length / 3 + 1 := by
      simp only [List.length_cons]; omega
    rw [Bool.and_eq_true, ih, groups, Nat.forall_lt_succ_left]
    simp [groupOk, Nat.mul_succ]
  | case2 buf short =>
    simp [Nat.div_eq_of_lt (length_lt_three short)]

theorem groupsOk_append {u : List Byte} (whole : u.length % 3 = 0) (v : List Byte) :
    groupsOk (u ++ v) = (groupsOk u && groupsOk v) := by
  fun_induction groupsOk u with
  | case1 d0 d1 c rest ih =>
    simp only [List.length_cons] at whole
    rw [List.cons_append, List.cons_append, List.cons_append, groupsOk, ih (by omega), Bool.and_assoc]
  | case2 u short =>
    have lt := length_lt_three short
    rw [List.eq_nil_of_length_eq_zero (by omega : u.length = 0), List.nil_append, Bool.true_and]

/-! ## The step of a CRC frame (R69) -/

/-- An operation that answers alike in every state and writes no architectural register. -/
def AnswersPurely (i : Instr) : Prop := ∃ r, ∀ s, ∃ t, exec i s = .next t ∧ t.response = some r ∧ t.arch = s.arch

theorem answersPurely_crcCompute (b0 b1 : Byte) : AnswersPurely (.crcCompute b0 b1) :=
  ⟨_, fun _ => ⟨_, rfl, rfl, rfl⟩⟩

theorem answersPurely_crcVerify (buf : List Byte) : AnswersPurely (.crcVerify buf) := ⟨_, crcVerify_answer buf⟩

/-- What the decoder makes of a CRC frame is a CRC operation. -/
theorem answersPurely_of_decode {code : Byte} {payload : List Byte} {i : Instr} (crc : code = 0x01 ∨ code = 0x02)
    (decoded : decode (code :: payload) = .instr i) : AnswersPurely i := by
  have sent := encode_of_decodeFor decoded
  cases i with
  | crcCompute b0 b1 => exact answersPurely_crcCompute b0 b1
  | crcVerify buf => exact answersPurely_crcVerify buf
  | calLoad | altSet | convert | rdT | rdP | rdPn | rdH | rdValid | rdDew | rdRho | rdSlp =>
    cases sent
    exact absurd crc (by decide)

end Machine

/-! ## The obligations of the CRC block -/

namespace Proofs

open Machine

/-- Settles O21: the verdict is the conjunction of the indexed groups, and the loop's frame is the operation's. -/
theorem crcVerifyAnswersConjunctionOfGroups : Obligations.CrcVerifyAnswersConjunctionOfGroups := by
  intro buf s
  refine ⟨verdict buf, _, by simp [verdict, groupsOk_iff], exec_crcVerify buf s, ?_⟩
  split
  next whole =>
    obtain ⟨rawT, rawP, rawH, tfine⟩ := checkGroups_frame buf { s.work with okf := true, gidx := 0 }
    refine ⟨rawT, rawP, rawH, tfine, fun _ => ⟨?gidx, ?okf⟩⟩
    case gidx => simp [checkGroups_gidx]
    case okf => simp [checkGroups_okf, verdict_of_whole whole]
  next ragged => exact ⟨rfl, rfl, rfl, rfl, fun whole => absurd whole ragged⟩

/-- Settles O24: the decoder makes a CRC operation of the frame, or rejects it in every state alike. -/
theorem crcOperationsArePure : Obligations.CrcOperationsArePure := by
  intro code payload crc
  cases decoded : decode (code :: payload) with
  | instr i =>
    obtain ⟨r, answer⟩ := answersPurely_of_decode crc decoded
    refine ⟨r, fun s rest sent => ?_⟩
    rw [step_of_instr sent decoded]
    exact answer (s.take rest)
  | reject e => exact ⟨_, fun s rest sent => ⟨_, step_of_reject sent decoded, rfl, rfl⟩⟩

/-- Settles O25: the group check compares with the CRC byte itself; one flipped bit is an error of odd weight; a
ragged length has the verdict false. -/
theorem verifyLaws : Obligations.VerifyLaws := by
  refine ⟨fun b0 b1 s => ?valid, fun b0 b1 k s lt => ?flipped, fun buf s ragged => ?ragged⟩
  case valid =>
    obtain ⟨t, run, answer⟩ := execCrcVerify_group b0 b1 (crc8 b0 b1) s
    exact ⟨t, run, answer.trans (by rw [if_pos rfl])⟩
  case flipped =>
    have one : ∀ k < 24, weight (1#24 <<< k) % 2 = 1 := by decide
    exact verify_detects_odd b0 b1 (one k lt) s
  case ragged =>
    obtain ⟨t, run, answer, -⟩ := crcVerify_answer buf s
    exact ⟨t, run, answer.trans (by rw [verdict_of_not_whole ragged]; rfl)⟩

/-- Settles O26: each shift multiplies by `X` modulo the generator, and the initial value inverts the first byte. -/
theorem crcIsPolynomialRemainder : Obligations.CrcIsPolynomialRemainder := bitPoly_crc8

/-- Settles O27: the serial register is the one of R62 but for the bits still to come; the table lists the byte step;
each bit of the byte step comes from eight shifts, equal terms of the XOR cancelling. -/
theorem crcEquivalentForms : Obligations.CrcEquivalentForms := by
  refine ⟨fun b0 b1 => ?serial, ⟨?length, fun c b => crcTable_getElem? (c ^^^ b), fun b0 b1 => ?table⟩, ?parallel⟩
  case serial =>
    rw [map_getLsbD_append, List.foldl_append, foldl_serialStep_byte, foldl_serialStep_byte, crc8]
  case length => rw [crcTable_eq_map, List.length_map, List.length_range]
  case table =>
    rw [crcTable_getD, crcTable_getD]
    rfl
  case parallel =>
    intro c b x r
    have bit (i : Nat) : r.getLsbD i = (crcShifts 8 (c ^^^ b)).getLsbD i := rfl
    have xor_left (p q t : Bool) : (p != (q != t)) = (q != (p != t)) := Bool.xor_left_comm p q t
    simp only [bit, x, crcShifts, getLsbD_crcShift]
    generalize c ^^^ b = v
    simp [-BitVec.getLsbD_eq_getElem, bne_comm, xor_left]

/-- Settles O28: both differences are the remainder of the same word. -/
theorem crcIsAffine : Obligations.CrcIsAffine := crc8_xor_xor

/-- Settles O29: the map is injective on a finite type, for the generator divides no shifted byte but zero. -/
theorem crcIsBijectiveInEachByte : Obligations.CrcIsBijectiveInEachByte :=
  ⟨fun b0 => Finite.injective_iff_bijective.mp (crc8_injective_right b0),
    fun b1 => Finite.injective_iff_bijective.mp (crc8_injective_left b1)⟩

/-- Settles O30: two valid groups differ by a multiple of the generator, and such a pattern has weight at least 4. -/
theorem validGroupsDifferInFourBits : Obligations.ValidGroupsDifferInFourBits := by
  intro a b c d ne
  have ne_zero : groupWord a b ^^^ groupWord c d ≠ 0 := fun zero => by
    obtain ⟨rfl, rfl⟩ := groupWord_inj (BitVec.xor_eq_zero_iff.mp zero)
    exact ne.elim (absurd rfl) (absurd rfl)
  have distance := four_le_weight_of_generator_dvd (generator_dvd_groupWord_xor_groupWord a b c d) ne_zero
  rwa [groupWord_xor_groupWord, weight_append, weight_append] at distance

/-- Settles O31: a multiple of the generator has even weight, and none but zero is a burst of 8 bits. -/
theorem oddAndBurstErrorsAreDetected : Obligations.OddAndBurstErrorsAreDetected := by
  rintro b0 b1 e (odd | ⟨ne, k, burst⟩) s
  · exact verify_detects_odd b0 b1 odd s
  · exact verify_detects b0 b1 (not_generator_dvd_of_burst ne burst) s

/-- Settles O32: with whole groups on both sides the verdict of the concatenation is that of its groups. -/
theorem verifyOfConcatenation : Obligations.VerifyOfConcatenation := by
  intro u v wholeU wholeV s
  obtain ⟨t₁, run₁, answer₁, -⟩ := crcVerify_answer u s
  obtain ⟨t₂, run₂, answer₂, -⟩ := crcVerify_answer v s
  obtain ⟨t₃, run₃, answer₃, -⟩ := crcVerify_answer (u ++ v) s
  have whole : (u ++ v).length % 3 = 0 := by rw [List.length_append]; omega
  have both : verdict (u ++ v) = (verdict u && verdict v) := by
    rw [verdict_of_whole whole, groupsOk_append wholeU, verdict_of_whole wholeU, verdict_of_whole wholeV]
  exact ⟨verdict u, verdict v, t₁, t₂, t₃, run₁, answer₁, run₂, answer₂, run₃, both ▸ answer₃⟩

/-- Settles O20: the operation's own update and answer. -/
theorem crcComputeAnswersTheChecksum : Obligations.CrcComputeAnswersTheChecksum := fun _ _ _ => rfl

/-- Settles O22: no group is examined. -/
theorem verifyRejectsLengthNotMultipleOfThree : Obligations.VerifyRejectsLengthNotMultipleOfThree :=
  fun buf s ragged => (execCrcVerify_eq buf s).trans (if_pos ragged)

/-- Settles O23: the frame decodes to CRC.VERIFY of no groups. -/
theorem verifyOfEmptyBufferIsTrue : Obligations.VerifyOfEmptyBufferIsTrue :=
  fun _ _ sent => ⟨_, step_of_instr sent rfl, rfl⟩

end Proofs

end Sys2Proof

/-! # Proofs: binary64 arithmetic (00_scope.md section 6.3) -/

namespace Sys2Proof.Machine

/-! ## Rounding to nearest with a sign (R82) -/

/-- A magnitude with a sign. -/
def signed (neg : Bool) (n : Nat) : Int := if neg then -(n : Int) else n

theorem unitsOf_eq_signed (v : F64) : unitsOf v = signed (signBit v) (magUnits v) := rfl

theorem unitsOf_packSign_eq_signed (neg : Bool) {m : Nat} (h : m < 2 ^ 63) :
    unitsOf (packSign neg m) = signed neg (magOfBits m) := unitsOf_packSign neg h

theorem unitsOf_roundF64_eq_signed (neg : Bool) (n d : Nat) :
    unitsOf (roundF64 neg n d) = signed neg (magOfBits (roundMagnitude n d)) :=
  unitsOf_packSign_eq_signed neg (roundMagnitude_lt n d)

@[simp] theorem abs_signed (neg : Bool) (n : Nat) : |signed neg n| = n := by
  cases neg <;> simp [signed]

theorem signed_mul_signed (s t : Bool) (m n : Nat) : signed s m * signed t n = signed (s != t) (m * n) := by
  cases s <;> cases t <;> simp [signed]

theorem signed_mul (neg : Bool) (m n : Nat) : signed neg (m * n) = signed neg m * n := by
  cases neg <;> simp [signed]

theorem signed_decide_neg (x : Int) : signed (decide (x < 0)) x.natAbs = x := by
  simp only [signed, decide_eq_true_eq]
  split <;> omega

theorem signed_eq_signed_of_bne {s u : Bool} {m n : Nat} (h : signed (u != s) m = n) : signed u m = signed s n := by
  cases u <;> cases s <;> simp_all [signed]

/-- An error with signs, measured on the magnitudes. -/
theorem abs_signed_sub (s t u : Bool) (n d c : Nat) :
    |signed s n - signed u c * signed t d| = |(n : Int) - d * signed (u != (s != t)) c| := by
  rw [abs_eq_abs]
  cases s with
  | false => left; cases u <;> cases t <;> simp [signed] <;> ring
  | true => right; cases u <;> cases t <;> simp [signed] <;> ring

/-- The rounded magnitude is also nearest among the values of the other sign, which lie beyond zero. -/
theorem roundMagnitude_nearest_signed (neg : Bool) (n d c : Nat) (hd : 0 < d)
    (finite : roundMagnitude n d < infMagnitude) :
    |(n : Int) - d * magOfBits (roundMagnitude n d)| ≤ |(n : Int) - d * signed neg (magOfBits c)| ∧
    (|(n : Int) - d * magOfBits (roundMagnitude n d)| = |(n : Int) - d * signed neg (magOfBits c)| →
      signed neg (magOfBits c) ≠ magOfBits (roundMagnitude n d) → roundMagnitude n d % 2 = 0) := by
  obtain ⟨near, even⟩ := roundMagnitude_nearest n d c hd finite
  cases neg with
  | false => exact ⟨near, fun tie ne => even tie fun h => ne (by rw [h]; rfl)⟩
  | true =>
    obtain ⟨nearZero, evenZero⟩ := roundMagnitude_nearest n d 0 hd finite
    have zero : magOfBits 0 = 0 := rfl
    have exact_zero : |(n : Int) - d * magOfBits 0| = n := by simp [zero]
    have beyond : |(n : Int) - d * signed true (magOfBits c)| = n + d * magOfBits c := by
      rw [signed, if_pos rfl, mul_neg, sub_neg_eq_add]
      exact abs_of_nonneg (by positivity)
    rw [exact_zero] at nearZero evenZero
    rw [beyond]
    have pos : (0 : Int) ≤ d * magOfBits c := by positivity
    refine ⟨nearZero.trans (by omega), fun tie ne => ?_⟩
    have none : (d : Int) * magOfBits c = 0 := by omega
    have c_zero : magOfBits c = 0 := by
      have := (mul_eq_zero.mp none).resolve_left (by exact_mod_cast hd.ne')
      exact_mod_cast this
    refine evenZero (by omega) fun h => ne ?_
    rw [← h, c_zero, zero]
    rfl

/-- `r` is `exact / d` units rounded once: finite exactly below the overflow threshold, otherwise an infinity; a finite
result is nearest among the finite values, and even where another is as near. -/
structure CorrectlyRounded (exact d : Int) (r : F64) : Prop where
  finite_iff : isFinite r = true ↔ |exact| < overflowUnits * |d|
  inf_of_not_finite : isFinite r = false → isInf r = true
  nearest : isFinite r = true → ∀ c : F64, isFinite c = true →
    |exact - unitsOf r * d| ≤ |exact - unitsOf c * d| ∧
    (|exact - unitsOf r * d| = |exact - unitsOf c * d| → unitsOf c ≠ unitsOf r → r.getLsbD 0 = false)

theorem getLsbD_zero_packSign (neg : Bool) {m : Nat} (h : m < 2 ^ 63) (even : m % 2 = 0) :
    (packSign neg m).getLsbD 0 = false := by
  rw [BitVec.getLsbD, packSign_toNat neg h, Nat.testBit_zero]
  cases neg <;> simp <;> omega

/-- Rounding stays finite exactly below the overflow threshold. -/
theorem roundMagnitude_lt_infMagnitude_iff (n : Nat) {d : Nat} (hd : 0 < d) :
    roundMagnitude n d < infMagnitude ↔ n < overflowUnits * d := by
  have le_inf : roundMagnitude n d ≤ infMagnitude := min_le_right _ _
  rw [lt_iff_le_and_ne, Ne, roundMagnitude_overflow n d hd, Nat.not_le, Nat.mul_comm d]
  exact and_iff_right le_inf

/-- `roundF64` rounds correctly, whatever the signs of the exact value's numerator and denominator. -/
theorem correctlyRounded_roundF64 (s t : Bool) (n : Nat) {d : Nat} (hd : 0 < d) :
    CorrectlyRounded (signed s n) (signed t d) (roundF64 (s != t) n d) := by
  constructor
  case finite_iff =>
    rw [isFinite_roundF64, abs_signed, abs_signed, roundMagnitude_lt_infMagnitude_iff n hd]
    exact_mod_cast Iff.rfl
  case inf_of_not_finite =>
    intro h
    rw [← Bool.not_eq_true, isFinite_roundF64] at h
    rw [isInf_iff, roundF64, packSign_mag _ (roundMagnitude_lt n d)]
    exact le_antisymm (min_le_right _ _) (not_lt.mp h)
  case nearest =>
    intro finite c _
    rw [isFinite_roundF64] at finite
    obtain ⟨near, even⟩ := roundMagnitude_nearest_signed (signBit c != (s != t)) n d (c.toNat % 2 ^ 63) hd finite
    have error_r : |signed s n - unitsOf (roundF64 (s != t) n d) * signed t d| =
        |(n : Int) - d * magOfBits (roundMagnitude n d)| := by
      rw [unitsOf_roundF64_eq_signed, abs_signed_sub, bne_self_eq_false]
      rfl
    have error_c : |signed s n - unitsOf c * signed t d| =
        |(n : Int) - d * signed (signBit c != (s != t)) (magOfBits (c.toNat % 2 ^ 63))| := by
      rw [unitsOf_eq_signed, magUnits_eq, abs_signed_sub]
    rw [error_r, error_c]
    refine ⟨near, fun tie ne => getLsbD_zero_packSign _ (roundMagnitude_lt n d) (even tie fun h => ne ?_)⟩
    rw [unitsOf_roundF64_eq_signed, unitsOf_eq_signed, magUnits_eq]
    exact signed_eq_signed_of_bne h

/-! ## The operations, case by case -/

section Operations

variable {a b : F64}

theorem isNaN_of_isQuietNaN {v : F64} (h : isQuietNaN v = true) : isNaN v = true := by
  rw [isQuietNaN, Bool.and_eq_true] at h
  exact h.1

theorem signBit_packSign_infMagnitude (neg : Bool) : signBit (packSign neg infMagnitude) = neg :=
  packSign_signBit neg infMagnitude_lt

theorem packSign_zero (neg : Bool) : packSign neg 0 = roundF64 neg 0 1 := by
  rw [roundF64, roundMagnitude_exact 0 1 0 Nat.one_pos (Nat.zero_le _) rfl]

theorem unitsOf_fneg (v : F64) : unitsOf (fneg v) = -unitsOf v := by
  rw [unitsOf, unitsOf, signBit_fneg, magUnits_fneg]
  cases signBit v <;> simp

/-- The sign of a sum: an exact zero is negative only when both terms are. -/
def sumSign (a b : F64) : Bool :=
  if unitsOf a + unitsOf b = 0 then signBit a && signBit b else decide (unitsOf a + unitsOf b < 0)

theorem fadd_of_isFinite (ha : isFinite a = true) (hb : isFinite b = true) :
    fadd a b = roundF64 (sumSign a b) (unitsOf a + unitsOf b).natAbs 1 := by
  simp only [fadd, isNaN_of_isFinite ha, isNaN_of_isFinite hb, isInf_of_isFinite ha, isInf_of_isFinite hb, sumSign]
  by_cases zero : unitsOf a + unitsOf b = 0
  · simp [zero, packSign_zero]
  · simp [zero]

theorem isQuietNaN_fadd_of_isNaN (h : isNaN a = true ∨ isNaN b = true) : isQuietNaN (fadd a b) = true := by
  rw [fadd, if_pos (by simpa using h)]
  exact isQuietNaN_freeNaN _ _ _

theorem fadd_of_isInf_left (ha : isInf a = true) (hb : isNaN b = false)
    (same : isInf b = true → signBit a = signBit b) : fadd a b = a := by
  cases hi : isInf b with
  | false => simp [fadd, isNaN_of_isInf ha, hb, ha, hi]
  | true => simp [fadd, isNaN_of_isInf ha, hb, ha, hi, same hi]

theorem fadd_of_isInf_right (ha : isFinite a = true) (hb : isInf b = true) : fadd a b = b := by
  simp [fadd, isNaN_of_isFinite ha, isNaN_of_isInf hb, isInf_of_isFinite ha, hb]

theorem isQuietNaN_fadd_of_opposite (ha : isInf a = true) (hb : isInf b = true) (opposite : signBit a ≠ signBit b) :
    isQuietNaN (fadd a b) = true := by
  simp [fadd, isNaN_of_isInf ha, isNaN_of_isInf hb, ha, hb, opposite, isQuietNaN_freeNaN]

/-- But for the NaN it may give, a difference is a sum. -/
theorem fsub_eq_fadd_fneg (ha : isNaN a = false) (hb : isNaN b = false)
    (opposite : isInf a = true → isInf b = true → signBit a ≠ signBit b) : fsub a b = fadd a (fneg b) := by
  simp only [fsub, ha, hb, Bool.or_self, Bool.false_eq_true, if_false]
  refine if_neg fun same => ?_
  simp only [Bool.and_eq_true, beq_iff_eq] at same
  obtain ⟨⟨infA, infB⟩, same⟩ := same
  exact opposite infA infB same

theorem isQuietNaN_fsub_of_isNaN (h : isNaN a = true ∨ isNaN b = true) : isQuietNaN (fsub a b) = true := by
  rw [fsub, if_pos (by simpa using h)]
  exact isQuietNaN_freeNaN _ _ _

theorem isQuietNaN_fsub_of_same (ha : isInf a = true) (hb : isInf b = true) (same : signBit a = signBit b) :
    isQuietNaN (fsub a b) = true := by
  simp [fsub, isNaN_of_isInf ha, isNaN_of_isInf hb, ha, hb, same, isQuietNaN_freeNaN]

theorem fmul_of_isFinite (ha : isFinite a = true) (hb : isFinite b = true) :
    fmul a b = roundF64 (signBit a != signBit b) (magUnits a * magUnits b) oneUnits := by
  simp [fmul, isNaN_of_isFinite, isInf_of_isFinite, ha, hb, signsDiffer]

theorem isQuietNaN_fmul_of_isNaN (h : isNaN a = true ∨ isNaN b = true) : isQuietNaN (fmul a b) = true := by
  rw [fmul, if_pos (by simpa using h)]
  exact isQuietNaN_freeNaN _ _ _

theorem isQuietNaN_fmul_of_inf_zero (ha : isNaN a = false) (hb : isNaN b = false)
    (h : isInf a = true ∧ magUnits b = 0 ∨ isInf b = true ∧ magUnits a = 0) : isQuietNaN (fmul a b) = true := by
  simp [fmul, ha, hb, h, isQuietNaN_freeNaN]

theorem fmul_of_isInf (ha : isNaN a = false) (hb : isNaN b = false) (h : isInf a = true ∨ isInf b = true)
    (za : magUnits a ≠ 0) (zb : magUnits b ≠ 0) :
    fmul a b = packSign (signBit a != signBit b) infMagnitude := by
  simp [fmul, ha, hb, h, za, zb, signsDiffer]

theorem fdiv_of_isFinite (ha : isFinite a = true) (hb : isFinite b = true) (hz : magUnits b ≠ 0) :
    fdiv a b = roundF64 (signBit a != signBit b) (magUnits a * oneUnits) (magUnits b) := by
  simp [fdiv, isNaN_of_isFinite, isInf_of_isFinite, ha, hb, hz, signsDiffer]

theorem isQuietNaN_fdiv_of_isNaN (h : isNaN a = true ∨ isNaN b = true) : isQuietNaN (fdiv a b) = true := by
  rw [fdiv, if_pos (by simpa using h)]
  exact isQuietNaN_freeNaN _ _ _

theorem isQuietNaN_fdiv_of_undetermined (ha : isNaN a = false) (hb : isNaN b = false)
    (h : isInf a = true ∧ isInf b = true ∨ magUnits a = 0 ∧ magUnits b = 0) : isQuietNaN (fdiv a b) = true := by
  simp [fdiv, ha, hb, h, isQuietNaN_freeNaN]

theorem fdiv_of_isInf_left (ha : isInf a = true) (hb : isFinite b = true) :
    fdiv a b = packSign (signBit a != signBit b) infMagnitude := by
  simp [fdiv, isNaN_of_isInf ha, isNaN_of_isFinite hb, ha, isInf_of_isFinite hb, magUnits_ne_zero_of_isInf ha,
    signsDiffer]

theorem fdiv_of_zero (ha : isFinite a = true) (hb : isFinite b = true) (za : magUnits a ≠ 0) (zb : magUnits b = 0) :
    fdiv a b = packSign (signBit a != signBit b) infMagnitude := by
  simp [fdiv, isNaN_of_isFinite ha, isNaN_of_isFinite hb, isInf_of_isFinite ha, za, zb, signsDiffer]

theorem fdiv_of_isInf_right (ha : isFinite a = true) (hb : isInf b = true) :
    fdiv a b = packSign (signBit a != signBit b) 0 := by
  simp [fdiv, isNaN_of_isFinite ha, isNaN_of_isInf hb, isInf_of_isFinite ha, hb, magUnits_ne_zero_of_isInf hb,
    signsDiffer]

/-! ## Each operation rounds correctly (R82) -/

theorem signed_sumSign (a b : F64) : signed (sumSign a b) (unitsOf a + unitsOf b).natAbs = unitsOf a + unitsOf b := by
  rw [sumSign]
  split
  next zero => rw [zero]; cases signBit a && signBit b <;> rfl
  next => exact signed_decide_neg _

theorem correctlyRounded_fadd (ha : isFinite a = true) (hb : isFinite b = true) :
    CorrectlyRounded (unitsOf a + unitsOf b) 1 (fadd a b) := by
  have rounded := correctlyRounded_roundF64 (sumSign a b) false (unitsOf a + unitsOf b).natAbs Nat.one_pos
  rwa [signed_sumSign, Bool.bne_false, ← fadd_of_isFinite ha hb] at rounded

theorem signBit_fadd (ha : isFinite a = true) (hb : isFinite b = true) : signBit (fadd a b) = sumSign a b := by
  rw [fadd_of_isFinite ha hb, signBit_roundF64]

theorem fsub_of_isFinite (ha : isFinite a = true) (hb : isNaN b = false) : fsub a b = fadd a (fneg b) :=
  fsub_eq_fadd_fneg (isNaN_of_isFinite ha) hb fun inf => by rw [isInf_of_isFinite ha] at inf; contradiction

theorem correctlyRounded_fsub (ha : isFinite a = true) (hb : isFinite b = true) :
    CorrectlyRounded (unitsOf a - unitsOf b) 1 (fsub a b) := by
  rw [fsub_of_isFinite ha (isNaN_of_isFinite hb), sub_eq_add_neg, ← unitsOf_fneg]
  exact correctlyRounded_fadd ha (by rwa [isFinite_fneg])

theorem signBit_fsub (ha : isFinite a = true) (hb : isFinite b = true) :
    signBit (fsub a b) = sumSign a (fneg b) := by
  rw [fsub_of_isFinite ha (isNaN_of_isFinite hb), signBit_fadd ha (by rwa [isFinite_fneg])]

theorem correctlyRounded_fmul (ha : isFinite a = true) (hb : isFinite b = true) :
    CorrectlyRounded (unitsOf a * unitsOf b) oneUnits (fmul a b) := by
  have rounded := correctlyRounded_roundF64 (signBit a != signBit b) false (magUnits a * magUnits b) oneUnits_pos
  rwa [← signed_mul_signed, Bool.bne_false, ← fmul_of_isFinite ha hb] at rounded

theorem correctlyRounded_fdiv (ha : isFinite a = true) (hb : isFinite b = true) (hz : magUnits b ≠ 0) :
    CorrectlyRounded (unitsOf a * oneUnits) (unitsOf b) (fdiv a b) := by
  have rounded := correctlyRounded_roundF64 (signBit a) (signBit b) (magUnits a * oneUnits) (Nat.pos_of_ne_zero hz)
  have numerator : signed (signBit a) (magUnits a * oneUnits) = unitsOf a * oneUnits := signed_mul _ _ _
  rwa [numerator, ← fdiv_of_isFinite ha hb hz] at rounded

end Operations

/-! ## Exact results -/

/-- A number of up to 53 bits, moved up by `k`, is a value of the format: its bits are those of the number moved up
until it fills the significand. -/
theorem exists_magOfBits (k : Nat) {sig : Nat} (fits : sig ≤ 2 ^ 53) :
    ∃ m ≤ k * 2 ^ 52 + sig, magOfBits m = sig * 2 ^ k := by
  induction k generalizing sig with
  | zero => exact ⟨sig, by omega, by simpa using magOfBits_scaled 0 sig fits (.inl rfl)⟩
  | succ k ih =>
    by_cases full : 2 ^ 52 ≤ sig
    · exact ⟨(k + 1) * 2 ^ 52 + sig, le_refl _, magOfBits_scaled (k + 1) sig fits (.inr full)⟩
    · obtain ⟨m, below, value⟩ := ih (sig := 2 * sig) (by omega)
      have grow : k * 2 ^ 52 + 2 * sig ≤ (k + 1) * 2 ^ 52 + sig := by omega
      exact ⟨m, below.trans grow, by rw [value, Nat.pow_succ]; ring⟩

/-- `v` is the finite number `n * 2^e`, in units. -/
structure Dyadic (n : Int) (e : Nat) (v : F64) : Prop where
  finite : isFinite v = true
  units : unitsOf v = n * 2 ^ e

/-- A number of up to 53 bits, moved up within the format's range, is a value of the format. -/
theorem exists_dyadic {n : Int} {e : Nat} (fits : |n| ≤ 2 ^ 53) (small : e ≤ 2044) : ∃ v, Dyadic n e v := by
  rw [Int.abs_eq_natAbs] at fits
  obtain ⟨m, below, value⟩ := exists_magOfBits e (sig := n.natAbs) (by omega)
  have finite : m < infMagnitude := by rw [infMagnitude]; omega
  have pattern := finite.trans infMagnitude_lt
  refine ⟨packSign (decide (n < 0)) m, ?_, ?_⟩
  · rwa [isFinite_iff, packSign_mag _ pattern]
  · rw [unitsOf_packSign_eq_signed _ pattern, value, signed_mul, signed_decide_neg, Nat.cast_pow, Nat.cast_ofNat]

theorem abs_mul_two_pow_lt_overflowUnits {n : Int} {e : Nat} (fits : |n| ≤ 2 ^ 53) (small : e ≤ 2044) :
    |n * 2 ^ e| < overflowUnits := by
  have top : (2 : Nat) ^ 53 * 2 ^ 2044 < overflowUnits := by decide +kernel
  have step : (2 : Nat) ^ e ≤ 2 ^ 2044 := pow_le_pow_right₀ one_le_two small
  rw [Int.abs_eq_natAbs] at fits ⊢
  have significand : n.natAbs ≤ 2 ^ 53 := by omega
  rw [Int.natAbs_mul, Int.natAbs_pow, show (2 : Int).natAbs = 2 from rfl]
  generalize (2 : Nat) ^ 2044 = greatest at top step
  exact Int.ofNat_lt.mpr ((Nat.mul_le_mul significand step).trans_lt top)

/-- Where the exact value is one of the format, nothing is rounded. -/
theorem CorrectlyRounded.dyadic {exact d n : Int} {e : Nat} {r : F64} (rounded : CorrectlyRounded exact d r)
    (hd : d ≠ 0) (fits : |n| ≤ 2 ^ 53) (small : e ≤ 2044) (value : exact = n * 2 ^ e * d) : Dyadic n e r := by
  have finite : isFinite r = true := by
    rw [rounded.finite_iff, value, abs_mul]
    exact mul_lt_mul_of_pos_right (abs_mul_two_pow_lt_overflowUnits fits small) (abs_pos.mpr hd)
  obtain ⟨c, hc⟩ := exists_dyadic fits small
  have near := (rounded.nearest finite c hc.finite).1
  rw [hc.units, value, sub_self, abs_zero, abs_nonpos_iff, sub_eq_zero] at near
  exact ⟨finite, (mul_right_cancel₀ hd near).symm⟩

theorem oneUnits_cast : (oneUnits : Int) = 2 ^ 1074 := by rw [oneUnits, Nat.cast_pow, Nat.cast_ofNat]

theorem two_pow_mul_two_pow {e f g : Nat} (h : e + f = g + 1074) : (2 : Int) ^ e * 2 ^ f = 2 ^ g * oneUnits := by
  rw [← pow_add, h, pow_add, oneUnits_cast]

theorem oneUnits_cast_pos : (0 : Int) < oneUnits := Int.natCast_pos.mpr oneUnits_pos

theorem oneUnits_cast_ne_zero : (oneUnits : Int) ≠ 0 := oneUnits_cast_pos.ne'

theorem i2f_eq_roundF64 (n : Int) : i2f n = roundF64 (decide (n < 0)) (n.natAbs * oneUnits) 1 := by
  unfold i2f
  split
  case h_1 => rw [packSign_zero]; simp
  case h_2 k => rfl
  case h_3 k => rw [decide_eq_true (Int.negSucc_lt_zero k)]; rfl

namespace Dyadic

variable {n m : Int} {e f g j k : Nat} {a b v : F64}

/-- Integers of up to 53 bits are converted exactly (R83). -/
theorem i2f (fits : |n| ≤ 2 ^ 53) : Dyadic n 1074 (i2f n) := by
  have rounded := correctlyRounded_roundF64 (decide (n < 0)) false (n.natAbs * oneUnits) Nat.one_pos
  rw [Bool.bne_false, ← i2f_eq_roundF64, signed_mul, signed_decide_neg] at rounded
  exact rounded.dyadic one_ne_zero fits (by decide) (by rw [oneUnits_cast]; exact (mul_one _).symm)

theorem fsub (ha : Dyadic n e a) (hb : Dyadic m e b) (fits : |n - m| ≤ 2 ^ 53) (small : e ≤ 2044) :
    Dyadic (n - m) e (fsub a b) :=
  (correctlyRounded_fsub ha.finite hb.finite).dyadic one_ne_zero fits small (by rw [ha.units, hb.units]; ring)

theorem fmul (ha : Dyadic n e a) (hb : Dyadic m f b) (fits : |n * m| ≤ 2 ^ 53) (small : g ≤ 2044)
    (exponent : e + f = g + 1074) : Dyadic (n * m) g (fmul a b) := by
  refine (correctlyRounded_fmul ha.finite hb.finite).dyadic oneUnits_cast_ne_zero fits small ?_
  rw [ha.units, hb.units]
  linear_combination n * m * two_pow_mul_two_pow exponent

/-- Dividing by a power of two changes the exponent alone. -/
theorem fdiv (ha : Dyadic n e a) (hb : Dyadic 1 f b) (fits : |n| ≤ 2 ^ 53) (small : g ≤ 2044)
    (exponent : g + f = e + 1074) : Dyadic n g (fdiv a b) := by
  have nonzero : unitsOf b ≠ 0 := by rw [hb.units]; positivity
  refine (correctlyRounded_fdiv ha.finite hb.finite fun h => nonzero ((unitsOf_eq_zero b).mpr h)).dyadic nonzero fits
    small ?_
  rw [ha.units, hb.units]
  linear_combination -n * two_pow_mul_two_pow exponent

/-- The value as a fraction of a power of two. -/
theorem mul_two_pow (h : Dyadic n e v) (exponent : e + j = 1074) : unitsOf v * 2 ^ j = n * oneUnits := by
  have power := two_pow_mul_two_pow (e := e) (f := j) (g := 0) (by omega)
  rw [h.units]
  linear_combination n * power

theorem abs_unitsOf_lt (h : Dyadic n e v) (bound : |n| < 2 ^ j) (exponent : j + e = k + 1074) :
    |unitsOf v| < 2 ^ k * oneUnits := by
  rw [h.units, abs_mul, abs_of_pos (a := (2 : Int) ^ e) (by positivity), ← two_pow_mul_two_pow exponent]
  exact mul_lt_mul_of_pos_right bound (by positivity)

end Dyadic

namespace AtMostPow

variable {k : Nat} {v : F64}

theorem of_abs_le (finite : isFinite v = true) (h : |unitsOf v| ≤ 2 ^ k * oneUnits) : AtMostPow k v :=
  ⟨finite, by rw [abs_unitsOf] at h; exact_mod_cast h⟩

theorem abs_unitsOf_le (h : AtMostPow k v) : |unitsOf v| ≤ 2 ^ k * oneUnits := by
  rw [abs_unitsOf]
  exact_mod_cast h.mag_le

end AtMostPow

/-! ## Rounding between two values (R85, R113) -/

/-- Rounding a magnitude between two finite values gives a value between them. -/
theorem inRange_roundF64 {lo hi : F64} {n d : Nat} (hd : 0 < d) (hlo : isFinite lo = true) (hhi : isFinite hi = true)
    (posLo : signBit lo = false) (posHi : signBit hi = false) (above : d * magUnits lo ≤ n)
    (below : n ≤ d * magUnits hi) : inRange lo hi (roundF64 false n d) = true := by
  rw [magUnits_eq] at above below
  have finLo := (isFinite_iff lo).mp hlo
  have finHi := (isFinite_iff hi).mp hhi
  have lower := le_roundMagnitude n d _ hd finLo.le above
  have upper := roundMagnitude_le n d _ hd below
  have finite : isFinite (roundF64 false n d) = true := (isFinite_roundF64 false n d).mpr (upper.trans_lt finHi)
  have unitsLo : unitsOf lo ≤ unitsOf (roundF64 false n d) := by
    rw [unitsOf_roundF64_eq_signed, unitsOf_eq_signed, posLo, magUnits_eq]
    exact Int.ofNat_le.mpr (magOfBits_strictMono.monotone lower)
  have unitsHi : unitsOf (roundF64 false n d) ≤ unitsOf hi := by
    rw [unitsOf_roundF64_eq_signed, unitsOf_eq_signed hi, posHi, magUnits_eq]
    exact Int.ofNat_le.mpr (magOfBits_strictMono.monotone upper)
  have number := isNaN_of_isFinite finite
  simp only [inRange, Bool.and_eq_true, fle_iff]
  exact ⟨⟨finite, isNaN_of_isFinite hlo, number, unitsLo⟩, number, isNaN_of_isFinite hhi, unitsHi⟩

theorem magUnits_mono_of_pos {v w : F64} (pos : 0 < unitsOf v) (h : unitsOf v ≤ unitsOf w) :
    magUnits v ≤ magUnits w := by
  have := abs_le_abs_of_nonneg pos.le h
  rw [abs_unitsOf, abs_unitsOf] at this
  exact_mod_cast this

theorem signBit_eq_false_of_unitsOf_pos {v : F64} (h : 0 < unitsOf v) : signBit v = false := by
  rw [unitsOf] at h
  split at h
  next => omega
  next positive => simpa using positive

end Sys2Proof.Machine

/-! # Proofs: compensation (41_compensation.md) -/

namespace Sys2Proof.Machine

/-! ## The clamp, case by case (R84, R101) -/

section Clamp

variable {v lo hi : F64}

theorem clamp_of_flt (h : flt v lo = true) : clamp v lo hi = lo := by rw [clamp, if_pos h]

theorem clamp_of_fgt (hle : fle lo hi = true) (h : fgt v hi = true) : clamp v lo hi = hi := by
  rw [fle_iff] at hle
  have above := (fgt_iff v hi).mp h
  rw [clamp, if_neg (by rw [flt_iff]; omega), if_pos h]

theorem clamp_of_inside (below : fle lo v = true) (above : fle v hi = true) : clamp v lo hi = v := by
  rw [fle_iff] at below above
  rw [clamp, if_neg (by rw [flt_iff]; omega), if_neg (by rw [fgt_iff]; omega)]

/-- A finite value lies strictly between the infinities. -/
theorem abs_unitsOf_lt_of_isFinite (h : isFinite v = true) : |unitsOf v| < magOfBits infMagnitude := by
  rw [abs_unitsOf]
  exact Int.ofNat_lt.mpr ((isFinite_iff_magUnits v).mp h)

theorem flt_negInf (h : isFinite lo = true) : flt 0xFFF0000000000000 lo = true := by
  have bottom : unitsOf 0xFFF0000000000000 = -magOfBits infMagnitude := by decide +kernel
  rw [flt_iff, bottom]
  exact ⟨by decide +kernel, isNaN_of_isFinite h, (abs_lt.mp (abs_unitsOf_lt_of_isFinite h)).1⟩

theorem fgt_posInf (h : isFinite hi = true) : fgt 0x7FF0000000000000 hi = true := by
  have top : unitsOf 0x7FF0000000000000 = magOfBits infMagnitude := by decide +kernel
  rw [fgt_iff, top]
  exact ⟨by decide +kernel, isNaN_of_isFinite h, (abs_lt.mp (abs_unitsOf_lt_of_isFinite h)).2⟩

end Clamp

/-! ## The floor (R92) -/

theorem floorInt_of_isFinite {v : F64} (finite : isFinite v = true) : floorInt v = unitsOf v / oneUnits := by
  rw [floorInt, if_pos finite]

theorem floorInt_mul_le {v : F64} (finite : isFinite v = true) : floorInt v * oneUnits ≤ unitsOf v := by
  rw [floorInt_of_isFinite finite]
  exact Int.ediv_mul_le _ oneUnits_cast_ne_zero

theorem lt_floorInt_add_one_mul {v : F64} (finite : isFinite v = true) : unitsOf v < (floorInt v + 1) * oneUnits := by
  rw [floorInt_of_isFinite finite]
  exact Int.lt_ediv_add_one_mul_self _ oneUnits_cast_pos

theorem AtMostPow.abs_floorInt_le {k : Nat} {v : F64} (h : AtMostPow k v) : |floorInt v| ≤ 2 ^ k := by
  obtain ⟨lower, upper⟩ := abs_le.mp h.abs_unitsOf_le
  rw [floorInt_of_isFinite h.finite, abs_le]
  exact ⟨Int.le_ediv_of_mul_le oneUnits_cast_pos ((neg_mul _ _).trans_le lower),
    Int.ediv_le_of_le_mul oneUnits_cast_pos upper⟩

/-! ## The temperature stage (R90 to R94) -/

theorem dyadic_i2f_toNat {w : Nat} (c : BitVec w) (hw : w ≤ 53) : Dyadic c.toNat 1074 (i2f c.toNat) :=
  .i2f (by rw [Nat.abs_cast]; exact_mod_cast c.isLt.le.trans (Nat.pow_le_pow_right Nat.two_pos hw))

/-- `raw_t - 16·T1`, the whole number behind the differences `a` and `b` (R94). -/
def tempDifference (rawT : BitVec 20) (t1 : BitVec 16) : Int := (rawT.toNat : Int) - 16 * t1.toNat

theorem abs_tempDifference_le (rawT : BitVec 20) (t1 : BitVec 16) : |tempDifference rawT t1| ≤ 1048575 := by
  have := rawT.isLt
  have := t1.isLt
  rw [tempDifference, abs_le]
  omega

/-- `a` and `b` are differences of two quotients by powers of two that differ by the factor 16. -/
theorem dyadic_quotientDifference (rawT : BitVec 20) (t1 : BitVec 16) {d e : F64} {j : Nat}
    (hd : Dyadic 1 (1078 + j) d) (he : Dyadic 1 (1074 + j) e) (small : j ≤ 1070) :
    Dyadic (tempDifference rawT t1) (1070 - j) (fsub (fdiv (i2f rawT.toNat) d) (fdiv (i2f (u16 t1)) e)) := by
  have raw := rawT.isLt
  have coefficient := t1.isLt
  have difference := abs_tempDifference_le rawT t1
  have hraw : Dyadic rawT.toNat (1070 - j) (fdiv (i2f rawT.toNat) d) :=
    (dyadic_i2f_toNat rawT (by decide)).fdiv hd (by rw [Nat.abs_cast]; omega) (by omega) (by omega)
  have ht1 : Dyadic t1.toNat (1074 - j) (fdiv (i2f (u16 t1)) e) :=
    (dyadic_i2f_toNat t1 (by decide)).fdiv he (by rw [Nat.abs_cast]; omega) (by omega) (by omega)
  have ht1' : Dyadic (16 * t1.toNat) (1070 - j) (fdiv (i2f (u16 t1)) e) :=
    ⟨ht1.finite, by rw [ht1.units, show 1074 - j = 4 + (1070 - j) by omega, pow_add]; ring⟩
  exact hraw.fsub ht1' (difference.trans (by decide)) (by omega)

theorem dyadic_tempA (rawT : BitVec 20) (t1 : BitVec 16) :
    Dyadic (tempDifference rawT t1) 1060 (tempA rawT (u16 t1)) :=
  dyadic_quotientDifference rawT t1 (j := 10) ⟨by decide +kernel, by decide +kernel⟩
    ⟨by decide +kernel, by decide +kernel⟩ (by decide)

theorem dyadic_tempB (rawT : BitVec 20) (t1 : BitVec 16) :
    Dyadic (tempDifference rawT t1) 1057 (tempB rawT (u16 t1)) :=
  dyadic_quotientDifference rawT t1 (j := 13) ⟨by decide +kernel, by decide +kernel⟩
    ⟨by decide +kernel, by decide +kernel⟩ (by decide)

theorem abs_s16_le (c : BitVec 16) : |s16 c| ≤ 32768 := by
  have := BitVec.toInt_lt (x := c)
  have := BitVec.le_toInt c
  rw [s16, abs_le]
  omega

theorem abs_tempDifference_mul_s16_le (rawT : BitVec 20) (t1 t2 : BitVec 16) :
    |tempDifference rawT t1 * s16 t2| ≤ 1048575 * 32768 := by
  rw [abs_mul]
  exact mul_le_mul (abs_tempDifference_le rawT t1) (abs_s16_le t2) (abs_nonneg _) (by decide)

theorem abs_tempDifference_sq_le (rawT : BitVec 20) (t1 : BitVec 16) :
    |tempDifference rawT t1 * tempDifference rawT t1| ≤ 1048575 * 1048575 := by
  have bound := abs_tempDifference_le rawT t1
  rw [abs_mul]
  exact mul_le_mul bound bound (abs_nonneg _) (by decide)

theorem dyadic_tempVar1 (rawT : BitVec 20) (t1 t2 : BitVec 16) :
    Dyadic (tempDifference rawT t1 * s16 t2) 1060 (tempVar1 rawT (u16 t1) (s16 t2)) :=
  (dyadic_tempA rawT t1).fmul (.i2f ((abs_s16_le t2).trans (by decide)))
    ((abs_tempDifference_mul_s16_le rawT t1 t2).trans (by decide)) (by decide) rfl

theorem dyadic_tempB_sq (rawT : BitVec 20) (t1 : BitVec 16) :
    Dyadic (tempDifference rawT t1 * tempDifference rawT t1) 1040
      (fmul (tempB rawT (u16 t1)) (tempB rawT (u16 t1))) :=
  (dyadic_tempB rawT t1).fmul (dyadic_tempB rawT t1) ((abs_tempDifference_sq_le rawT t1).trans (by decide)) (by decide)
    rfl

/-! The bounds of R92 on the two products and the sum. -/

theorem tempVar1_atMostPow (rawT : BitVec 20) (t1 t2 : BitVec 16) :
    AtMostPow 21 (tempVar1 rawT (u16 t1) (s16 t2)) := by
  have value := dyadic_tempVar1 rawT t1 t2
  exact .of_abs_le value.finite (value.abs_unitsOf_lt (j := 35)
    ((abs_tempDifference_mul_s16_le rawT t1 t2).trans_lt (by decide)) rfl).le

theorem tempVar2_atMostPow (rawT : BitVec 20) (t1 t3 : BitVec 16) :
    AtMostPow 21 (tempVar2 rawT (u16 t1) (s16 t3)) := by
  have square := dyadic_tempB_sq rawT t1
  have hsquare : AtMostPow 6 (fmul (tempB rawT (u16 t1)) (tempB rawT (u16 t1))) :=
    .of_abs_le square.finite (square.abs_unitsOf_lt (j := 40)
      ((abs_tempDifference_sq_le rawT t1).trans_lt (by decide)) rfl).le
  have hcoefficient : AtMostPow 15 (i2f (s16 t3)) := .i2f (by decide) (by zify; exact abs_s16_le t3)
  exact hsquare.fmul hcoefficient (by decide)

theorem tempSumOf_atMostPow_tight (rawT : BitVec 20) (c : Coeffs) : AtMostPow 22 (tempSumOf rawT c) :=
  (tempVar1_atMostPow rawT c.t1 c.t2).fadd (tempVar2_atMostPow rawT c.t1 c.t3) (by decide)

/-- TFINE holds the floor of the sum: it fits the register (R21, R92). -/
theorem toInt_ofInt_floorInt_tempSumOf (rawT : BitVec 20) (c : Coeffs) :
    (BitVec.ofInt 32 (floorInt (tempSumOf rawT c))).toInt = floorInt (tempSumOf rawT c) := by
  obtain ⟨lower, upper⟩ := abs_le.mp (tempSumOf_atMostPow_tight rawT c).abs_floorInt_le
  exact BitVec.toInt_ofInt_eq_self (by decide) (by omega) (by omega)

/-! ## CONVERT and the stores -/

section Convert

variable {s : State} (p q : BitVec 24) (h : BitVec 16)

theorem exec_convert (calibrated : s.arch.calValid = true) :
    exec (.convert p q h) s = .next ((s.converted p q h).respond .ok []) := if_pos calibrated

@[simp] theorem converted_tfine : (s.converted p q h).work.tfine = convertedTfine q s.arch.cal := rfl

/-- A zero first coefficient makes the denominator term zero, so `PCore` is `Zero` (R96 P-2, P-3). -/
theorem pressureStage_of_p1_zero {a : PressureArgs} (zero : a.p1 = 0) : pressureStage a = 0x40DD4C0000000000 := by
  have same : feq 0x0000000000000000 0x0000000000000000 = true := by decide +kernel
  rw [pressureStage, pCore, pressureDenominator, if_pos zero, if_pos same]

theorem top20_eq (p : BitVec 24) : top20 p = BitVec.ofNat 20 (p.toNat / 16) := by
  apply BitVec.eq_of_toNat_eq
  simp [top20, Nat.shiftRight_eq_div_pow]

/-- The numbers of the rules as the patterns the model's stages write (R90, R91, R97, R98, R101). -/
theorem i2f_constants :
    (i2f 16384 = 0x40D0000000000000 ∧ i2f 1024 = 0x4090000000000000 ∧ i2f 131072 = 0x4100000000000000 ∧
      i2f 8192 = 0x40C0000000000000) ∧
    (i2f 5120 = 0x40B4000000000000 ∧ i2f (-40) = 0xC044000000000000 ∧ i2f 85 = 0x4055400000000000) ∧
    (i2f 30000 = 0x40DD4C0000000000 ∧ i2f 110000 = 0x40FADB0000000000) ∧
    (i2f 0 = 0x0000000000000000 ∧ i2f 100 = 0x4059000000000000) := by
  decide +kernel

end Convert

end Sys2Proof.Machine

/-! ## The obligations of the arithmetic and the compensation -/

namespace Sys2Proof.Proofs

open Machine

/-- Settles O41: the differences and the exact products are bounded through `raw_t - 16·T1`, the two rounded values by
powers of two, which rounding does not pass. -/
theorem temperatureSumIsBounded : Obligations.TemperatureSumIsBounded := by
  refine ⟨fun rawT c => ?bounds, fun p q h s calibrated => ?tfine, by decide +kernel⟩
  case bounds =>
    have difference := abs_tempDifference_le rawT c.t1
    have strict : |tempDifference rawT c.t1| < 2 ^ 20 := difference.trans_lt (by decide)
    have sum := tempSumOf_atMostPow_tight rawT c
    obtain ⟨lower, upper⟩ := abs_le.mp sum.abs_floorInt_le
    have square := (dyadic_tempB_sq rawT c.t1).abs_unitsOf_lt (j := 40) (k := 6)
      ((abs_tempDifference_sq_le rawT c.t1).trans_lt (by decide)) rfl
    exact ⟨difference, (dyadic_tempA rawT c.t1).abs_unitsOf_lt (k := 6) strict rfl,
      (tempVar1_atMostPow rawT c.t1 c.t2).abs_unitsOf_le, (dyadic_tempB rawT c.t1).abs_unitsOf_lt (k := 3) strict rfl,
      (le_abs_self _).trans_lt square, (tempVar2_atMostPow rawT c.t1 c.t3).abs_unitsOf_le, sum.finite,
      sum.abs_unitsOf_le, floorInt_mul_le sum.finite, lt_floorInt_add_one_mul sum.finite, lower, upper,
      toInt_ofInt_floorInt_tempSumOf rawT c⟩
  case tfine =>
    refine ⟨_, exec_convert p q h calibrated, ?_⟩
    rw [respond_work, converted_tfine, converted_rawT]
    exact toInt_ofInt_floorInt_tempSumOf (top20 q) s.arch.cal

/-- Settles O42: each of the four is `raw_t - 16·T1`, or its product with T2 or itself, moved by a power of two, and has
at most 53 bits. -/
theorem temperatureDifferencesAreExact : Obligations.TemperatureDifferencesAreExact := fun rawT c =>
  ⟨(dyadic_tempA rawT c.t1).mul_two_pow rfl, (dyadic_tempB rawT c.t1).mul_two_pow rfl,
    (dyadic_tempVar1 rawT c.t1 c.t2).mul_two_pow rfl, (dyadic_tempB_sq rawT c.t1).mul_two_pow rfl⟩

/-- Settles O43: the sum is never a NaN, so the clamp gives a number in its range. -/
theorem storedTemperatureIsAlwaysInRange : Obligations.StoredTemperatureIsAlwaysInRange :=
  fun p q h s calibrated => ⟨_, exec_convert p q h calibrated, tempOk_clampedTemp (top20 q) s.arch.cal⟩

/-- Settles O44: a zero P1 makes the denominator term zero, so `PCore` is `Zero`. -/
theorem zeroFirstPressureCoefficientGivesSentinel : Obligations.ZeroFirstPressureCoefficientGivesSentinel := by
  intro p q h s calibrated zero
  refine ⟨_, exec_convert p q h calibrated, ?_, rfl, rfl⟩
  rw [respond_arch, converted_arch]
  exact pressureStage_of_p1_zero (by rw [pressureArgs, zero]; rfl)

/-- Settles O46, by the comparison that holds in each case; an infinity lies beyond every finite bound. -/
theorem clampCases : Obligations.ClampCases := fun _ _ _ hlo hhi hle =>
  ⟨clamp_of_flt, clamp_of_fgt hle, clamp_of_inside, fun nan => clamp_of_isNaN nan _ _, clamp_of_flt (flt_negInf hlo),
    clamp_of_fgt hle (fgt_posInf hhi)⟩

/-- Settles O50: the ends of the range divide exactly, and rounding passes neither quotient; a NaN operand gives
a NaN. -/
theorem pressureInHectopascalIsInRange : Obligations.PressureInHectopascalIsInRange := by
  refine fun v => ⟨fun within => ?range, fun nan => isNaN_of_isQuietNaN (isQuietNaN_fdiv_of_isNaN (.inl nan))⟩
  simp only [inRange, Bool.and_eq_true, fle_iff] at within
  obtain ⟨⟨finite, -, -, above⟩, -, -, below⟩ := within
  have lowest : 0 < unitsOf 0x40DD4C0000000000 := by decide +kernel
  have positive := lowest.trans_le above
  have lower : magUnits 0x4059000000000000 * magUnits 0x4072C00000000000 = magUnits 0x40DD4C0000000000 * oneUnits := by
    decide +kernel
  have upper : magUnits 0x40FADB0000000000 * oneUnits = magUnits 0x4059000000000000 * magUnits 0x4091300000000000 := by
    decide +kernel
  have sign : (signBit v != signBit 0x4059000000000000) = false := by
    rw [signBit_eq_false_of_unitsOf_pos positive]
    decide +kernel
  rw [fdiv_of_isFinite finite (by decide +kernel) (by decide +kernel), sign]
  exact inRange_roundF64 (by decide +kernel) (by decide +kernel) (by decide +kernel) (by decide +kernel)
    (by decide +kernel) (lower.trans_le (Nat.mul_le_mul_right _ (magUnits_mono_of_pos lowest above)))
    ((Nat.mul_le_mul_right _ (magUnits_mono_of_pos positive below)).trans_eq upper)

/-- Settles O60: such an integer is a value of the format, so the conversion rounds nothing. -/
theorem integerConversionIsExact : Obligations.IntegerConversionIsExact := by
  intro n bound
  have value := Dyadic.i2f (n := n) bound.le
  exact ⟨value.finite, by rw [value.units, oneUnits_cast]⟩

/-- Settles O33: with `CALVALID = 0` the operation takes its storing branch. -/
theorem calLoadStoresCalibrationOnce : Obligations.CalLoadStoresCalibrationOnce :=
  fun _ _ uncalibrated => if_neg (by simp [State.calibrated, uncalibrated])

/-- Settles O35: the operation's own update and answer. -/
theorem altSetStoresPattern : Obligations.AltSetStoresPattern := fun _ _ => rfl

/-- Settles O37: the model's constants are the conversions of the rules' numbers, and dropping 4 bits is a
division by 16. -/
theorem convertStoresReading : Obligations.ConvertStoresReading := by
  intro p q h s calibrated
  simp only [exec_convert p q h calibrated, ← top20_eq, i2f_constants]
  rfl

/-- Settles O38: the converted registers mention the state in its calibration alone. -/
theorem convertDependsOnSampleAndCalibrationAlone : Obligations.ConvertDependsOnSampleAndCalibrationAlone := by
  intro p q h s₁ s₂ t₁ t₂ c₁ c₂ same run₁ run₂
  rw [exec_convert p q h c₁] at run₁
  rw [exec_convert p q h c₂] at run₂
  cases run₁
  cases run₂
  simp only [respond_arch, converted_arch, same, and_self]

/-- Settles O45: the humidity stage is the clamped value, and the clamp gives its bounds outside the range. -/
theorem humidityClampIsExact : Obligations.HumidityClampIsExact :=
  ⟨fun p q h _ calibrated => ⟨_, exec_convert p q h calibrated, rfl⟩,
    fun _ => clamp_of_fgt (by decide +kernel), fun _ => clamp_of_flt⟩

/-- Settles O57: the exact sum, or difference as the sum with the second sign inverted, is rounded once. -/
theorem sumsAreCorrectlyRounded : Obligations.SumsAreCorrectlyRounded := by
  refine ⟨fun a b nan => ⟨isQuietNaN_fadd_of_isNaN nan, isQuietNaN_fsub_of_isNaN nan⟩,
    fun a b ha hb => ?infinities, fun a b ha hb => ?infFinite, fun a b ha hb => ?finiteInf, fun a b ha hb => ?finites⟩
  case infinities =>
    have nanB := isNaN_of_isInf hb
    refine ⟨fun same => ⟨fadd_of_isInf_left ha nanB fun _ => same, isQuietNaN_fsub_of_same ha hb same⟩,
      fun opposite => ⟨isQuietNaN_fadd_of_opposite ha hb opposite, ?_⟩⟩
    rw [fsub_eq_fadd_fneg (isNaN_of_isInf ha) nanB fun _ _ => opposite]
    exact fadd_of_isInf_left ha (by rwa [isNaN_fneg]) fun _ => by rw [signBit_fneg, Bool.eq_not]; exact opposite
  case infFinite =>
    have nanB := isNaN_of_isFinite hb
    have infB := isInf_of_isFinite hb
    refine ⟨fadd_of_isInf_left ha nanB (by simp [infB]), ?_⟩
    rw [fsub_eq_fadd_fneg (isNaN_of_isInf ha) nanB (by simp [infB])]
    exact fadd_of_isInf_left ha (by rwa [isNaN_fneg]) (by simp [infB])
  case finiteInf =>
    rw [fsub_of_isFinite ha (isNaN_of_isInf hb), fadd_of_isInf_right ha hb,
      fadd_of_isInf_right ha (by rwa [isInf_fneg]), isInf_fneg, signBit_fneg]
    exact ⟨rfl, hb, rfl⟩
  case finites =>
    have sum := correctlyRounded_fadd ha hb
    have difference := correctlyRounded_fsub ha hb
    simp only [signBit_fadd ha hb, signBit_fsub ha hb, sumSign, unitsOf_fneg, ← sub_eq_add_neg, signBit_fneg]
    refine ⟨⟨by rw [sum.finite_iff, abs_one, mul_one], sum.inf_of_not_finite, fun ne => by simp [ne],
        by simpa only [mul_one] using sum.nearest⟩,
      ⟨by rw [difference.finite_iff, abs_one, mul_one], difference.inf_of_not_finite, fun ne => by simp [ne],
        by simpa only [mul_one] using difference.nearest⟩, fun zero => if_pos zero, fun zero => if_pos zero⟩

/-- Settles O58: the exact product of the units is rounded once, to units. -/
theorem productsAreCorrectlyRounded : Obligations.ProductsAreCorrectlyRounded := by
  refine ⟨fun a b => isQuietNaN_fmul_of_isNaN, fun a b ha hb => ?infinity, fun a b ha hb => ?finites⟩
  case infinity =>
    have nanA := isNaN_of_isInf ha
    have za := magUnits_ne_zero_of_isInf ha
    refine ⟨fun ⟨_, zero⟩ => ?_, fun nonzero => ?_⟩
    · rw [unitsOf_eq_zero] at zero
      exact ⟨isQuietNaN_fmul_of_inf_zero nanA hb (.inl ⟨ha, zero⟩),
        isQuietNaN_fmul_of_inf_zero hb nanA (.inr ⟨ha, zero⟩)⟩
    · have zb : magUnits b ≠ 0 := by
        rw [Ne, unitsOf_eq_zero] at nonzero
        exact nonzero.elim magUnits_ne_zero_of_isInf id
      rw [fmul_of_isInf nanA hb (.inl ha) za zb, fmul_of_isInf hb nanA (.inr ha) zb za, bne_comm (a := signBit b)]
      simp only [isInf_packSign, signBit_packSign_infMagnitude, and_self]
  case finites =>
    have product := correctlyRounded_fmul ha hb
    exact ⟨by rw [product.finite_iff, Nat.abs_cast], product.inf_of_not_finite,
      by rw [fmul_of_isFinite ha hb, signBit_roundF64], product.nearest⟩

/-- Settles O59: the exact quotient of the units is rounded once, to units. -/
theorem quotientsAreCorrectlyRounded : Obligations.QuotientsAreCorrectlyRounded := by
  refine ⟨fun a b => isQuietNaN_fdiv_of_isNaN, fun a b ha hb => ?infinities, fun a b ha hb => ?infFinite,
    fun a b ha hb => ?finiteInf, fun a b ha hb =>
      ⟨fun nonzero => ?finites, fun zero nonzero => ?byZero, fun zero zeroA => ?zeros⟩⟩
  case infinities =>
    exact isQuietNaN_fdiv_of_undetermined (isNaN_of_isInf ha) (isNaN_of_isInf hb) (.inl ⟨ha, hb⟩)
  case infFinite =>
    rw [fdiv_of_isInf_left ha hb]
    exact ⟨isInf_packSign _, signBit_packSign_infMagnitude _⟩
  case finiteInf =>
    rw [fdiv_of_isInf_right ha hb]
    have zero := AtMostPow.zero 0 (signBit a != signBit b)
    refine ⟨zero.finite, ?_, packSign_signBit _ (by decide)⟩
    rw [unitsOf_packSign _ (by decide)]
    simp [magOfBits]
  case finites =>
    rw [Ne, unitsOf_eq_zero] at nonzero
    have quotient := correctlyRounded_fdiv ha hb nonzero
    exact ⟨quotient.finite_iff, quotient.inf_of_not_finite,
      by rw [fdiv_of_isFinite ha hb nonzero, signBit_roundF64], quotient.nearest⟩
  case byZero =>
    rw [Ne, unitsOf_eq_zero] at nonzero
    rw [fdiv_of_zero ha hb nonzero ((unitsOf_eq_zero b).mp zero)]
    exact ⟨isInf_packSign _, signBit_packSign_infMagnitude _⟩
  case zeros =>
    rw [unitsOf_eq_zero] at zero zeroA
    exact isQuietNaN_fdiv_of_undetermined (isNaN_of_isFinite ha) (isNaN_of_isFinite hb) (.inr ⟨zeroA, zero⟩)

end Sys2Proof.Proofs

/-! # Proofs: reading out and the derived quantities (42_readout_derived.md) -/

namespace Sys2Proof.Machine

/-! ## What a read answers (R110, R111) -/

section Read

variable {i : Instr} {answer : Arch → Status × List Byte} {s t : State}

theorem exec_of_readAnswer_of_reading (h : readAnswer i = some answer) (reading : s.arch.valid = true) :
    exec i s = .next (answered s ((answer s.arch).1.code :: (answer s.arch).2)) := by
  rw [exec_of_readAnswer h, withReading_valid reading]
  rfl

/-- A read of one binary64 quantity. -/
theorem exec_of_quantity (quantity : Arch → F64) (h : readAnswer i = some fun a => (.ok, be64 (quantity a)))
    (reading : s.arch.valid = true) : exec i s = .next (answered s (0x00 :: be64 (quantity s.arch))) :=
  exec_of_readAnswer_of_reading h reading

theorem exec_of_readAnswer_of_noReading (h : readAnswer i = some answer) (noReading : s.arch.valid = false) :
    exec i s = .next (answered s [0x01]) := by
  rw [exec_of_readAnswer h, withReading_invalid noReading]
  rfl

theorem exec_rdDew (reading : s.arch.valid = true) :
    exec .rdDew s = .next (answered s ((dewAnswer s.arch).1.code :: (dewAnswer s.arch).2)) :=
  exec_of_readAnswer_of_reading rfl reading

theorem exec_rdSlp (reading : s.arch.valid = true) :
    exec .rdSlp s = .next (answered s (0x00 :: be64 (slp s.arch.temp s.arch.press s.arch.hum s.arch.alt))) :=
  exec_of_quantity (fun a => slp a.temp a.press a.hum a.alt) rfl reading

theorem exec_rdValid (s : State) : exec .rdValid s = .next (answered s [0x00, boolByte s.arch.valid]) := rfl

/-- RD.VALID is the one RD operation that needs no reading. -/
theorem readAnswer_of_mem_readOps (h : i ∈ readOps) : i = .rdValid ∨ ∃ answer, readAnswer i = some answer := by
  cases i with
  | rdValid => exact .inl rfl
  | rdT | rdP | rdPn | rdH | rdDew | rdRho | rdSlp => exact .inr ⟨_, rfl⟩
  | _ => simp [readOps] at h

/-- The frame a read answers, as a function of the architectural registers alone. -/
def readFrame (answer : Arch → Status × List Byte) (a : Arch) : Frame :=
  if a.valid then (answer a).1.code :: (answer a).2 else [0x01]

theorem exec_eq_readFrame (h : readAnswer i = some answer) (s : State) :
    exec i s = .next (answered s (readFrame answer s.arch)) := by
  cases reading : s.arch.valid with
  | true => rw [exec_of_readAnswer_of_reading h reading, readFrame, if_pos reading]
  | false => rw [exec_of_readAnswer_of_noReading h reading, readFrame, if_neg (by simp [reading])]

/-! ## A reading stays until a reset (R16, R111) -/

theorem Effect.keeps_reading (effect : Effect s i t) (reading : s.arch.valid = true) : t.arch.valid = true := by
  cases effect with
  | answer | crcCompute | crcVerify | calLoad | altSet => exact reading
  | convert => rfl

theorem step_keeps_reading (reading : s.arch.valid = true) (run : step s = .next t)
    (noReset : ∀ rest, s.incoming ≠ .reset :: rest) : t.arch.valid = true := by
  obtain ⟨-, next⟩ | ⟨rest, sent, -⟩ | ⟨_, _, _, -, -, next⟩ | ⟨_, _, _, -, -, next⟩ := step_cases s
  · cases next.symm.trans run
    exact reading
  · exact absurd sent (noReset rest)
  · exact (Effect.of_exec (next.symm.trans run)).keeps_reading reading
  · cases next.symm.trans run
    exact reading

end Read

/-! ## The dew point (R118, R119) -/

theorem dewAnswer_of_undefined {a : Arch} (undefined : fle a.hum 0x0000000000000000 = true) :
    dewAnswer a = (.undef, be64 Config.dewSentinel) := if_pos undefined

theorem dewAnswer_of_defined {a : Arch} (isDefined : fle a.hum 0x0000000000000000 = false) :
    dewAnswer a = (.ok, be64 (dewPoint a.temp a.hum)) := if_neg (Bool.eq_false_iff.mp isDefined)

/-- Only the two zeros stand for no units: the magnitude determines bits 62:0. -/
theorem unitsOf_eq_zero_iff (v : F64) : unitsOf v = 0 ↔ v = 0x0000000000000000 ∨ v = 0x8000000000000000 := by
  constructor
  case mp =>
    intro zero
    have bits : v.toNat % 2 ^ 63 = 0 := by
      rw [unitsOf_eq_zero, magUnits_eq] at zero
      exact magOfBits_strictMono.injective zero
    rw [← packSign_self v, bits]
    cases signBit v with
    | false => exact .inl rfl
    | true => exact .inr rfl
  case mpr =>
    rintro (rfl | rfl)
    · decide +kernel
    · decide +kernel

/-- A finite rounding does not fall below a finite value that the exact one reaches: that value would be nearer. -/
theorem CorrectlyRounded.unitsOf_le {exact d : Int} {r c : F64} (rounded : CorrectlyRounded exact d r) (pos : 0 < d)
    (finite : isFinite r = true) (hc : isFinite c = true) (reached : unitsOf c * d ≤ exact) :
    unitsOf c ≤ unitsOf r := by
  obtain ⟨near, -⟩ := rounded.nearest finite c hc
  rw [abs_of_nonneg (sub_nonneg.mpr reached)] at near
  exact le_of_mul_le_mul_right (sub_le_sub_iff_left exact |>.mp ((le_abs_self _).trans near)) pos

end Sys2Proof.Machine

/-! ## The obligations of the read-out -/

namespace Sys2Proof.Proofs

open Machine

/-- Settles O47: each of the seven reads has an answer that needs a reading; of the writes only CONVERT's touches
VALID, and it sets it. -/
theorem unavailableBeforeFirstReading : Obligations.UnavailableBeforeFirstReading := by
  refine ⟨fun i listed ne s noReading => ?_, fun _ _ => step_keeps_reading⟩
  obtain ⟨_, needsReading⟩ := (readAnswer_of_mem_readOps listed).resolve_left ne
  exact exec_of_readAnswer_of_noReading needsReading noReading

/-- Settles O53: a NaN is not below zero and no zero; a humidity in its range is not below zero, so only the zeros are
at most zero. -/
theorem dewPointUndefinedExactlyAtZeroHumidity : Obligations.DewPointUndefinedExactlyAtZeroHumidity := by
  intro v ok
  cases nan : isNaN v with
  | true =>
    refine iff_of_false (fun below => ?_) ?_
    · obtain ⟨number, -⟩ := (fle_iff _ _).mp below
      exact absurd nan (Bool.eq_false_iff.mp number)
    · rintro (rfl | rfl)
      · exact absurd nan (by decide +kernel)
      · exact absurd nan (by decide +kernel)
  | false =>
    have zero : isNaN 0x0000000000000000 = false ∧ unitsOf 0x0000000000000000 = 0 := by decide +kernel
    simp only [humOk, nan, Bool.false_or, inRange, Bool.and_eq_true, fle_iff, zero] at ok
    obtain ⟨⟨-, -, -, above⟩, -⟩ := ok
    rw [← unitsOf_eq_zero_iff, fle_iff, zero.2]
    exact ⟨fun ⟨_, _, below⟩ => le_antisymm below above, fun h => ⟨nan, zero.1, h.le⟩⟩

/-- Settles O54: at -40 the sum is the value 203.12, and a correctly rounded sum does not fall below it. -/
theorem dewPointDivisorIsPositive : Obligations.DewPointDivisorIsPositive := by
  intro v ok
  simp only [tempOk, inRange, Bool.and_eq_true, fle_iff] at ok
  obtain ⟨⟨finite, -, -, above⟩, -, -, below⟩ := ok
  have least : unitsOf 0x406963D70A3D70A4 = unitsOf 0x406E63D70A3D70A4 + unitsOf 0xC044000000000000 := by decide +kernel
  have greatest : unitsOf 0x406E63D70A3D70A4 + unitsOf 0x4055400000000000 < overflowUnits := by decide +kernel
  have positive : 0 < unitsOf 0x406963D70A3D70A4 := by decide +kernel
  have rounded := correctlyRounded_fadd (a := 0x406E63D70A3D70A4) (by decide +kernel) finite
  have finiteSum : isFinite (fadd 0x406E63D70A3D70A4 v) = true := by
    rw [rounded.finite_iff, abs_one, mul_one, abs_lt]
    omega
  refine (fle_iff _ _).mpr ⟨by decide +kernel, isNaN_of_isFinite finiteSum,
    rounded.unitsOf_le Int.one_pos finiteSum (by decide +kernel) ?_⟩
  rw [mul_one, least]
  exact Int.add_le_add_left above _

/-- Settles O56: the answer of each read mentions the state in its architectural registers alone. -/
theorem readOperationsWriteNothing : Obligations.ReadOperationsWriteNothing := by
  intro i listed
  obtain rfl | ⟨answer, needsReading⟩ := readAnswer_of_mem_readOps listed
  · exact ⟨fun a => [0x00, boolByte a.valid], exec_rdValid⟩
  · exact ⟨readFrame answer, exec_eq_readFrame needsReading⟩

/-- Settles O48: the answers of the three operations to a stored reading. -/
theorem primaryReadsAnswerTheRegisters : Obligations.PrimaryReadsAnswerTheRegisters := fun _ reading =>
  ⟨exec_of_quantity Arch.temp rfl reading, exec_of_quantity Arch.press rfl reading,
    exec_of_quantity Arch.hum rfl reading⟩

/-- Settles O49: the model's divisor is the conversion of 100, and both ends divide exactly. -/
theorem pressureReadsInHectopascal : Obligations.PressureReadsInHectopascal := by
  obtain ⟨-, -, -, -, hundred⟩ := i2f_constants
  refine ⟨fun s reading => ?_, by decide +kernel, by decide +kernel⟩
  rw [hundred]
  exact exec_of_quantity (fun a => pressureHPa a.press) rfl reading

/-- Settles O51: the flag's byte. -/
theorem readValidAnswersTheFlag : Obligations.ReadValidAnswersTheFlag := exec_rdValid

/-- Settles O52, by the comparison of the humidity with zero; the model's 2.0 is the conversion of 2. -/
theorem dewPointAnswers : Obligations.DewPointAnswers := by
  intro s reading
  have two : i2f 2 = 0x4000000000000000 := by decide +kernel
  refine ⟨fun undefined => ?_, fun isDefined => ?_⟩
  · rw [exec_rdDew reading, dewAnswer_of_undefined undefined]
    rfl
  · rw [exec_rdDew reading, dewAnswer_of_defined isDefined, two]
    rfl

/-- Settles O55: ALT.SET keeps the stored reading and writes the ALT that RD.SLP reads. -/
theorem densityAndSeaLevelPressureAnswers : Obligations.DensityAndSeaLevelPressureAnswers := by
  refine ⟨fun s reading => ⟨exec_of_quantity (fun a => rho a.temp a.press a.hum) rfl reading, exec_rdSlp reading,
    fun v t run => ?_⟩, fun _ _ _ _ => ⟨rfl, rfl⟩⟩
  cases run
  exact ⟨_, exec_rdSlp reading, rfl⟩

end Sys2Proof.Proofs

/-! # Proofs: errors and completions (60_exceptions.md) -/

namespace Sys2Proof

/-! ## What the decoder raises (R132, R133) -/

/-- The decoder raises `ErrFormat` for the empty frame and for a legal opcode with a wrong length, and for no other
frame. -/
theorem decodeErr_format_iff (maxBuf : Option Nat) (req : Frame) :
    (∃ e, decodeFor maxBuf req = .reject e ∧ Machine.decodeErr e = .format) ↔
      (req = [] ∨ ∃ code payload, req = code :: payload ∧ reservedOpcode code = false ∧
        ¬ lengthFits maxBuf code req.length) := by
  match req with
  | [] => exact iff_of_true ⟨.emptyFrame, rfl, rfl⟩ (.inl rfl)
  | code :: payload =>
    cases reserved : reservedOpcode code with
    | true => simp [decodeFor_of_reserved reserved, Machine.decodeErr, reserved]
    | false =>
      obtain ⟨rejected, accepted⟩ := decodeFor_of_legal reserved maxBuf payload
      by_cases fits : lengthFits maxBuf code (payload.length + 1)
      · obtain ⟨i, decoded⟩ := accepted fits
        simp [decoded, reserved, fits]
      · exact iff_of_true ⟨_, rejected fits, rfl⟩ (.inr ⟨code, payload, rfl, reserved, fits⟩)

namespace Machine

variable {s t : State} {i : Instr} {code : Byte} {payload : List Byte}

/-- Every step ends in a next state (R165). -/
theorem step_next (s : State) : ∃ t, step s = .next t := by
  obtain ⟨-, idle⟩ | ⟨_, -, reset⟩ | ⟨_, rest, i, -, -, run⟩ | ⟨_, _, _, -, -, reject⟩ := step_cases s
  · exact ⟨_, idle⟩
  · exact ⟨_, reset⟩
  · rw [run]
    exact exec_next i (s.take rest)
  · exact ⟨_, reject⟩

/-! ## The state checks of CAL.LOAD and CONVERT (R134, R135) -/

theorem convert_of_uncalibrated (p q : BitVec 24) (h : BitVec 16) (uncalibrated : s.arch.calValid = false) :
    exec (.convert p q h) s = .next (answered s [0x82]) :=
  if_neg (by simp [State.calibrated, uncalibrated])

/-- A loaded calibration stays: a CAL.LOAD fails, and no other operation writes it. -/
theorem exec_keeps_calibration (calibrated : s.arch.calValid = true) (run : exec i s = .next t) :
    t.arch.calValid = true ∧ t.arch.cal = s.arch.cal := by
  by_cases load : ∃ c, i = .calLoad c
  case pos =>
    obtain ⟨c, rfl⟩ := load
    cases (calLoad_of_calibrated c calibrated).symm.trans run
    exact ⟨calibrated, rfl⟩
  case neg =>
    obtain ⟨frame, -⟩ := Proofs.operationsWriteOnlyTheirRegisters i s t run
    obtain ⟨cal, calValid⟩ := frame fun c hc => load ⟨c, hc⟩
    exact ⟨calValid.trans calibrated, cal⟩

theorem step_keeps_calibration (calibrated : s.arch.calValid = true) (run : step s = .next t)
    (noReset : ∀ rest, s.incoming ≠ .reset :: rest) : t.arch.calValid = true ∧ t.arch.cal = s.arch.cal := by
  obtain ⟨-, next⟩ | ⟨rest, sent, -⟩ | ⟨_, rest, _, -, -, next⟩ | ⟨_, _, _, -, -, next⟩ := step_cases s
  · cases next.symm.trans run
    exact ⟨calibrated, rfl⟩
  · exact absurd sent (noReset rest)
  · exact exec_keeps_calibration (s := s.take rest) calibrated (next.symm.trans run)
  · cases next.symm.trans run
    exact ⟨calibrated, rfl⟩

/-! ## Which operations write an architectural register (R14, R142) -/

/-- An operation that changes an architectural register is CAL.LOAD, ALT.SET or CONVERT, and completes with `ST_OK`
alone. -/
theorem Effect.keeps_arch_or_stores (effect : Effect s i t) :
    t.arch = s.arch ∨
      (t.response = some [0x00] ∧ ∃ code ∈ ([0x10, 0x11, 0x20] : List Byte), (encode i).head? = some code) := by
  cases effect with
  | answer | crcCompute | crcVerify => exact .inl rfl
  | calLoad => exact .inr ⟨rfl, 0x10, by decide, rfl⟩
  | altSet => exact .inr ⟨rfl, 0x11, by decide, rfl⟩
  | convert => exact .inr ⟨rfl, 0x20, by decide, rfl⟩

/-! ## The reads behind their opcodes (R50, R111) -/

/-- The opcodes of the RD operations that need a reading (R111). -/
def readingOpcodes : List Byte := [0x30, 0x31, 0x32, 0x33, 0x38, 0x39, 0x3A]

theorem readAnswer_of_encode (sent : encode i = code :: payload) (listed : code ∈ readingOpcodes) :
    ∃ answer, readAnswer i = some answer := by
  cases i with
  | rdT | rdP | rdPn | rdH | rdDew | rdRho | rdSlp => exact ⟨_, rfl⟩
  | crcCompute | crcVerify | calLoad | altSet | convert | rdValid =>
    cases sent
    exact absurd listed (by decide)

/-! ## `ST_OK` when no check fails (R141) -/

/-- Each hypothesis denies the check of R141 for the operations of its opcodes. -/
theorem ok_of_checks (sent : encode i = code :: payload) (run : exec i s = .next t)
    (load : ¬ (code = 0x10 ∧ s.arch.calValid = true)) (convert : ¬ (code = 0x20 ∧ s.arch.calValid = false))
    (read : ¬ (code ∈ readingOpcodes ∧ s.arch.valid = false))
    (dew : ¬ (code = 0x38 ∧ fle s.arch.hum 0x0000000000000000 = true)) :
    ∃ bytes, t.response = some (0x00 :: bytes) := by
  have reading (listed : code ∈ readingOpcodes) : s.arch.valid = true := by simpa [listed] using read
  cases i with
  | crcCompute | altSet | rdValid =>
    cases run
    exact ⟨_, rfl⟩
  | crcVerify buf =>
    cases (exec_crcVerify buf s).symm.trans run
    exact ⟨_, rfl⟩
  | calLoad c =>
    cases sent
    cases (Proofs.calLoadStoresCalibrationOnce c s (by simpa using load)).symm.trans run
    exact ⟨_, rfl⟩
  | convert p q h =>
    cases sent
    cases (exec_convert p q h (by simpa using convert)).symm.trans run
    exact ⟨_, rfl⟩
  | rdDew =>
    cases sent
    have answer := exec_rdDew (reading (by decide))
    rw [dewAnswer_of_defined (by simpa using dew)] at answer
    cases answer.symm.trans run
    exact ⟨_, rfl⟩
  | rdT | rdP | rdPn | rdH | rdRho | rdSlp =>
    cases sent
    cases (exec_of_readAnswer_of_reading rfl (reading (by decide))).symm.trans run
    exact ⟨_, rfl⟩

end Machine

/-! ## The obligations of the exceptions -/

namespace Proofs

open Machine

/-- Settles O16: the reserved values are those without a row in the opcode map, and the decoder rejects them before
it looks at the length. -/
theorem reservedOpcodeRaisesErrIllegal : Obligations.ReservedOpcodeRaisesErrIllegal := by
  refine ⟨?count, fun s code payload rest reserved sent => ?answer⟩
  case count =>
    have sameCodes (code : Byte) : reservedOpcode code = (opRow code).isNone := by
      rw [Bool.eq_iff_iff, Option.isNone_iff_eq_none, opRow_eq_none_iff]
    simpa only [sameCodes] using reserved_count
  case answer => exact step_of_reject sent (decodeFor_of_reserved reserved Config.maxBuf payload)

/-- Settles O17: the decoder's checks, one after the other; a rejected frame is answered with its error alone. -/
theorem errFormatExactlyForEmptyOrMisSizedFrames : Obligations.ErrFormatExactlyForEmptyOrMisSizedFrames := by
  refine ⟨decodeErr_format_iff, fun s req rest e sent rejected format => ?_⟩
  rw [step_of_reject sent rejected, format]
  rfl

/-- Settles O18: the decoder's errors first; of the frames it accepts, each check belongs to the operations of its
opcodes, and an operation that passes its checks answers `ST_OK`. -/
theorem errorPriority : Obligations.ErrorPriority := by
  intro s req rest sent
  obtain ⟨t, run⟩ := step_next s
  refine ⟨t, run, ?empty, ?opcode⟩
  case empty =>
    rintro rfl
    cases (emptyFrameRaisesErrFormat s rest sent).symm.trans run
    rfl
  case opcode =>
    rintro code payload rfl
    refine ⟨fun reserved => ?reserved, fun legal misSized => ?misSized, fun legal fits => ?accepted⟩
    case reserved =>
      cases (reservedOpcodeRaisesErrIllegal.2 s code payload rest reserved sent).symm.trans run
      rfl
    case misSized =>
      have rejected := (decodeFor_of_legal legal Config.maxBuf payload).1 misSized
      cases (step_of_reject sent rejected).symm.trans run
      rfl
    case accepted =>
      obtain ⟨i, decoded⟩ := (decodeFor_of_legal legal Config.maxBuf payload).2 fits
      have frame := encode_of_decodeFor decoded
      rw [step_of_instr sent decoded] at run
      refine ⟨?load, ?convert, ?noReading, ?dew, ok_of_checks (s := s.take rest) frame run⟩
      case load =>
        rintro rfl calibrated
        obtain rfl := assemble_of_encode (row := ⟨0x10, .calLoad, .C⟩) frame rfl
        cases (calLoad_of_calibrated (s := s.take rest) _ calibrated).symm.trans run
        rfl
      case convert =>
        rintro rfl uncalibrated
        obtain rfl := assemble_of_encode (row := ⟨0x20, .convert, .S⟩) frame rfl
        cases (convert_of_uncalibrated (s := s.take rest) _ _ _ uncalibrated).symm.trans run
        rfl
      case noReading =>
        intro listed noReading
        obtain ⟨_, needsReading⟩ := readAnswer_of_encode frame listed
        cases (exec_of_readAnswer_of_noReading (s := s.take rest) needsReading noReading).symm.trans run
        rfl
      case dew =>
        rintro rfl reading undefined
        obtain rfl := assemble_of_encode (row := ⟨0x38, .rdDew, .Z⟩) frame rfl
        cases ((dewPointAnswers (s.take rest) reading).1 undefined).symm.trans run
        rfl

/-- Settles O19: a rejected frame is answered and nothing else; of the operations only the three stores write, and
those complete with `ST_OK`. -/
theorem errorsAndReadsChangeNoRegister : Obligations.ErrorsAndReadsChangeNoRegister := by
  intro s req rest t r sent run answer kind
  cases decoded : decode req with
  | reject e =>
    cases (step_of_reject sent decoded).symm.trans run
    rfl
  | instr i =>
    have effect := Effect.of_exec ((step_of_instr sent decoded).symm.trans run)
    refine effect.keeps_arch_or_stores.resolve_right fun ⟨ok, code, store, head⟩ => ?_
    rw [encode_of_decodeFor decoded] at head
    cases answer.symm.trans ok
    obtain ⟨st, failed, status⟩ | ⟨op, listed, opcode⟩ := kind
    · cases status
      exact absurd failed (by decide)
    · cases head.symm.trans opcode
      have disjoint : ∀ op ∈ ([0x10, 0x11, 0x20] : List Byte),
          op ∉ ([0x01, 0x02, 0x30, 0x31, 0x32, 0x33, 0x34, 0x38, 0x39, 0x3A] : List Byte) := by decide
      exact disjoint code store listed

/-- Settles O34: the state check of CAL.LOAD, and the writes of the other steps. -/
theorem loadedCalibrationIsImmutableUntilReset : Obligations.LoadedCalibrationIsImmutableUntilReset :=
  ⟨fun c _ => calLoad_of_calibrated c, fun _ _ => step_keeps_calibration⟩

/-- Settles O36: the state check of CONVERT. -/
theorem convertWithoutCalibrationRaisesErrNoCal : Obligations.ConvertWithoutCalibrationRaisesErrNoCal :=
  fun p q h _ => convert_of_uncalibrated p q h

end Proofs

end Sys2Proof

/-! # Proofs: every request is answered (70_reset_and_hazards.md) -/

namespace Sys2Proof

namespace Machine

/-- An operation answers, in each of the ways it can end, with a response of R48. -/
theorem Effect.answers_legally {s t : State} {i : Instr} (effect : Effect s i t) :
    ∃ r, t.response = some r ∧ legalResponse r := by
  cases effect with
  | answer st bytes legal => exact ⟨_, rfl, legal⟩
  | crcCompute | crcVerify => exact ⟨_, rfl, legalResponse_byte _⟩
  | calLoad | altSet | convert => exact ⟨_, rfl, legalResponse_status (st := .ok) (by decide)⟩

end Machine

namespace Proofs

open Machine

/-- Settles O6: a rejected frame is answered with its error alone, a decoded operation ends in an answer and takes no
further event. -/
theorem everyRequestIsAnswered : Obligations.EveryRequestIsAnswered := by
  intro s req rest sent
  cases decoded : decode req with
  | reject e => exact ⟨_, _, step_of_reject sent decoded, rfl, legalResponse_err _, rfl, rfl⟩
  | instr i =>
    obtain ⟨t, run⟩ := exec_next i (s.take rest)
    obtain ⟨r, answer, legal⟩ := (Effect.of_exec run).answers_legally
    obtain ⟨-, -, -, -, incoming, draw⟩ := operationsWriteOnlyTheirRegisters i (s.take rest) t run
    exact ⟨t, r, (step_of_instr sent decoded).trans run, answer, legal, incoming, draw⟩

end Proofs

end Sys2Proof
